-- ==== Sys2Proof/Word.lean ====
section
/-! DEFINITION. The plain word types of the Hamming(7,4) codec core (spec/00_scope.md R9: registers and command words
are 32 bits wide, bit 0 is the least significant bit, every field is unsigned). -/

namespace Sys2Proof

/-- A register or command word: 32 bits (R9, R70, R83). -/
abbrev Word := BitVec 32

/-- One byte lane of the bus (spec/20_memory.md R53). -/
abbrev Byte := BitVec 8

/-- A seven-bit field with one bit for each block position, position `i` in bit `i`: the form of `VAL[6:0]` and
`ERA[6:0]` (spec/30_encoding.md R70, R72). -/
abbrev Mask := BitVec 7

end Sys2Proof
end

