-- ==== Sys2Proof/Config.lean ====
section
/-! DEFINITION. The implementation parameters of spec/00_scope.md R8 and the free values of the model. Each `opaque`
constant has no body: no proof can learn a value of it, so whatever is proved holds for every value. -/

namespace Sys2Proof.Config

/-- The window's number: `HAM_BASE` is any multiple of 16 (R8, D3 OPEN; notes/assumptions/3). -/
opaque windowNumber : Nat

/-- `HAM_BASE`: the byte address of the core's 16-byte window (R8, spec/20_memory.md R50). The spec gives one `HAM_BASE` and
does not say where the windows of further instances lie; the model uses this one address for the window of whichever instance a
state is. DESIGN CHOICE (notes/assumptions/20). -/
def hamBase : Nat := 16 * windowNumber

/-- How many instances there are beside the first (R8, D20 OPEN; notes/assumptions/3). -/
opaque furtherInstances : Nat

/-- `HAM_INSTANCES`: the number of independent instances, at least 1 (R8, spec/10_state.md R36). -/
def hamInstances : Nat := furtherInstances + 1

/-- The clock cycles of a command beyond the first (R8, D15 OPEN; notes/assumptions/3). -/
opaque furtherCycles : Word → Nat

/-- `HAM_LATENCY`: clock cycles from the acceptance of a CMD write to its completion, at least 1; a function of the
command word, hence of the operation and its operands (R8, spec/70_reset_and_hazards.md R237). No rule depends on it. -/
def hamLatency (w : Word) : Nat := furtherCycles w + 1

/-- FREE VALUE. What a read of RES or STAT gives before the first reset: any value, one draw per read, the `n`th draw
(spec/70_reset_and_hazards.md R233; notes/assumptions/5). DESIGN CHOICE: instances with equal draws share it
(notes/assumptions/21). -/
opaque powerUpRead (n : Nat) : Word

/-- FREE VALUE. What host variable `x` reads as in draw `n` while nothing has been stored in it
(spec/70_reset_and_hazards.md R238: "with its variables undefined"; notes/assumptions/6). DESIGN CHOICE: instances, and hosts of
one instance, share it where draw and variable are equal (notes/assumptions/21). -/
opaque undefinedVar (n x : Nat) : Word

/-- FREE VALUE. A host's `a << b` with `b` at least 32 (spec/30_encoding.md R81 states no result; notes/assumptions/7). -/
opaque overshiftLeft (a b : Word) : Word

/-- FREE VALUE. A host's `a >> b` with `b` at least 32 (spec/30_encoding.md R81 states no result; notes/assumptions/7). -/
opaque overshiftRight (a b : Word) : Word

end Sys2Proof.Config
end

