-- ==== Sys2Proof/Syntax.lean ====
section
/-! DEFINITION. The value types of spec/10_state.md §2 (R30 to R32) and the three commands of the command set
(spec/30_encoding.md R71, one constructor of `Instr` for each row of spec/opcode_table.json). -/

namespace Sys2Proof

/-- R30: a symbol is a bit or the erased marker `?`. -/
inductive Symbol where
  | bit (b : Bool)
  | erased
  deriving DecidableEq, Repr

/-- R31: a block, seven symbols in the systematic layout. The fields stand in the order of the 0-based positions 0 to 6,
which is the order of the 1-based Hamming indices 1 to 7 (R10). -/
structure Block where
  p1 : Symbol
  p2 : Symbol
  d1 : Symbol
  p4 : Symbol
  d2 : Symbol
  d3 : Symbol
  d4 : Symbol
  deriving DecidableEq, Repr

/-- R32: a nibble, the four payload bits of one block. -/
structure Nibble where
  d1 : Bool
  d2 : Bool
  d3 : Bool
  d4 : Bool
  deriving DecidableEq, Repr

/-- R32: a partial nibble, the four data symbols a decode gives; an unresolved one is `Symbol.erased`. -/
structure PartialNibble where
  d1 : Symbol
  d2 : Symbol
  d3 : Symbol
  d4 : Symbol
  deriving DecidableEq, Repr

/-- R2, R71: the command set. The operands are the raw fields of the command word, as the pseudocode of
spec/30_encoding.md R79 passes them on: `ENC(val[3:0])`, `SYN(val, era)`, `DEC(val, era)`. -/
inductive Instr where
  /-- ENC (spec/41_encode.md R100): encode one nibble. `d` is `VAL[3:0]`, d1 in bit 0. -/
  | enc (d : BitVec 4)
  /-- SYN (spec/42_syndrome.md R120): the syndrome of the block `(VAL, ERA)`. -/
  | syn (val era : Mask)
  /-- DEC (spec/43_decode.md R140): decode the block `(VAL, ERA)`. -/
  | dec (val era : Mask)
  deriving DecidableEq, Repr

end Sys2Proof
end

