-- ==== Sys2Proof/Machine/HostSyntax.lean ====
section
/-! DEFINITION. The host program: the statements of spec/30_encoding.md R81 and their expressions, and the accesses of
spec/20_memory.md R52 beside the defined ones. These are host actions, not core commands; the commands are `Instr`. -/

namespace Sys2Proof.Machine

/-- An offset within the 16-byte window (spec/20_memory.md R50). -/
abbrev Offset := BitVec 4

/-- R51: the register map: the command port, the two state registers and the reserved word. -/
inductive Reg where
  | cmd
  | res
  | stat
  | rsv
  deriving DecidableEq, Repr

/-- A host variable, by number. -/
abbrev Var := Nat

/-- A label of the host program, by number. -/
abbrev Label := Nat

/-- R81: the two-operand operators of `<expr>` and `<cond>`. -/
inductive BinOp where
  | add
  | sub
  | shl
  | shr
  | and
  | or
  | xor
  | eq
  | ne
  | lt
  | le
  | gt
  | ge
  | land
  | lor
  deriving DecidableEq, Repr

/-- R81: expressions over host variables and constants. -/
inductive Expr where
  | const (w : Word)
  | var (x : Var)
  | not (e : Expr)
  | bin (op : BinOp) (a b : Expr)
  deriving DecidableEq, Repr

/-- What a result word holds, where the host turns it into text (spec/44_host_framer.md R190, R191). -/
inductive ResultKind where
  /-- `text(r.VAL[6:0])`: the seven symbols of a codeword, position 0 first. -/
  | codeword
  /-- `sym4(r)`: the four symbols `VAL[j]/ERA[j]`, j = 0..3. -/
  | partialNibble
  deriving DecidableEq, Repr

/-- R81: the host's statements. `WR` and `RD` carry the byte offset and the access width in bytes, so that the accesses
R52 leaves undefined can be written down too; `Stmt.wrReg` and `Stmt.rdReg` below are R81's own forms. -/
inductive Stmt where
  /-- `WR <reg>, <expr>`: `BusWrite(off, v)`. -/
  | wr (off : Offset) (width : Nat) (e : Expr)
  /-- `RD <reg> -> <var>`: `BusRead(off)` into a host variable. -/
  | rd (off : Offset) (width : Nat) (x : Var)
  /-- `SET <var>, <expr>`. -/
  | set (x : Var) (e : Expr)
  /-- `BR <cond>, <label>`. -/
  | br (cond : Expr) (l : Label)
  /-- `JMP <label>`. -/
  | jmp (l : Label)
  /-- `RST`: the reset event. -/
  | rst
  /-- `HALT`: the end of the host program. -/
  | halt
  /-- `<label>:`. -/
  | label (l : Label)
  /-- The line `; result = … ++ …` that ends an expansion of R190 or R191: the host appends the text of the words it read
  to its stream output. DESIGN CHOICE (notes/assumptions/15). -/
  | result (kind : ResultKind) (xs : List Var)
  deriving DecidableEq, Repr

/-- R51: the offset of a register. -/
def Reg.offset : Reg → Offset
  | .cmd => 0x0#4
  | .res => 0x4#4
  | .stat => 0x8#4
  | .rsv => 0xC#4

/-- R81: `WR <reg>, <expr>`. -/
def Stmt.wrReg (r : Reg) (e : Expr) : Stmt := .wr r.offset 4 e

/-- R81: `RD <reg> -> <var>`. -/
def Stmt.rdReg (r : Reg) (x : Var) : Stmt := .rd r.offset 4 x

end Sys2Proof.Machine
end

