-- ==== Sys2Proof/Machine/State.lean ====
section
/-! DEFINITION. The state of the machine as plain data: the core's registers (spec/10_state.md R21, R29), the command in
flight, the hosts that drive it (R20, spec/30_encoding.md R81) and the inputs that decide which of them moves next and
when a reset event arrives (spec/20_memory.md R64, spec/70_reset_and_hazards.md R231, R232). -/

namespace Sys2Proof.Machine

/-- Why a run stops with a fault. The core itself raises none (spec/60_exceptions.md R200): this one is the host's. -/
inductive Fault where
  /-- Raised by a host's `BR` (where it is taken) or `JMP` to a label its program does not have; R81 gives that no
  meaning. Safe: the run stops where the spec says nothing (notes/assumptions/8). -/
  | unknownLabel (l : Label)
  deriving DecidableEq, Repr

/-- Why a step is refused. -/
inductive Refusal where
  /-- An instruction without a meaning. Raised by nothing: every instruction of the table has its meaning. Safe. -/
  | notModelled (mnemonic : String)
  /-- Raised by a host's access that is not 4 bytes wide at a multiple of 4 (spec/20_memory.md R52: "the transaction is
  refused and the host agent is stuck"). Safe. -/
  | undefinedAccess
  /-- Raised by a host's CMD write before the first reset (spec/93_implementation_defined.md row 13: "a model does not
  admit them"; R233). Safe. -/
  | commandBeforeReset
  deriving DecidableEq, Repr

/-- One host that issues register transactions (R20): its program, the statement it is at, its variables, the stream
output it has put together and whether it has executed `HALT` (R239). DESIGN CHOICE (notes/assumptions/1).
-/
structure Driver where
  /-- The host program (R81). -/
  prog : List Stmt
  /-- The statement it executes next, counted from 0: "its sequencing (the "pc" of a model) belongs to the host" (R22). -/
  pc : Nat
  /-- The variables something has been stored in, by rising number; every other variable is undefined (R238). -/
  vars : List (Var × Word)
  /-- The host's stream output (R239). -/
  output : List Symbol
  /-- The host has executed `HALT` (R239). -/
  halted : Bool
  deriving DecidableEq, Repr

/-- Whether a reset event arrives in a step (spec/70_reset_and_hazards.md R230 to R232). DESIGN CHOICE
(notes/assumptions/4). -/
inductive ResetInput where
  /-- No reset event. -/
  | quiet
  /-- The reset event, with no host transaction at the same time. -/
  | alone
  /-- The reset event at the same time as the transaction the host issues in this step (R232). -/
  | withWrite
  deriving DecidableEq, Repr

/-- The machine: one instance of the core with the hosts on its bus. -/
structure State where
  /-- `RES` (R21, R25): the result of the last legal command. -/
  res : Word
  /-- `STAT` (R21, R27): the status of the last command. -/
  stat : Word
  /-- The command in flight (R29, R58): a CMD write the core has accepted and not completed. DESIGN CHOICE: it
completes in the step after (notes/assumptions/2). -/
  inFlight : Option Word
  /-- A reset event has occurred since power-up (R233, R234). -/
  wasReset : Bool
  /-- The hosts that can reach the core (R20, R64). -/
  drivers : List Driver
  /-- Which host moves in the coming turns, by number; when it is used up, host 0 (R64: the platform's bus serialises the
  hosts in one order; every order is some list). DESIGN CHOICE (notes/assumptions/11). -/
  schedule : List Nat
  /-- The reset events of the coming steps; when it is used up, none (R230 to R232). DESIGN CHOICE (notes/assumptions/4).
-/
  resets : List ResetInput
  /-- The model's own counter of draws: which free value the next undefined read takes. DESIGN CHOICE
(notes/assumptions/9); each instance counts its own draws from 0 (notes/assumptions/21). -/
  draws : Nat
  deriving DecidableEq, Repr

/-- R238: a host at the first statement of its program, its variables undefined. -/
def Driver.launch (prog : List Stmt) : Driver :=
  { prog := prog, pc := 0, vars := [], output := [], halted := false }

/-- R29, R230, R238: the launch state of a run of `prog`: right after a reset. -/
def State.launch (prog : List Stmt) : State :=
  { res := 0, stat := 0, inFlight := none, wasReset := true, drivers := [Driver.launch prog], schedule := [],
    resets := [], draws := 0 }

/-- The machine right after reset (R29), with one host that has no statement to execute. -/
def State.reset : State := State.launch []

/-- R233: power-up, before the first reset. The fields `res` and `stat` are not read before a reset
(notes/assumptions/5). -/
def State.powerUp (prog : List Stmt) : State := { State.launch prog with wasReset := false }

end Sys2Proof.Machine
end

