-- ==== Sys2Proof/Machine/Flags.lean ====
section
/-! DEFINITION. The status register STAT: its codes and its layout (spec/10_state.md R27, R28, R35). The core has no other
flags. -/

namespace Sys2Proof.Machine

/-- R28: the outcome codes. -/
inductive Code where
  | none
  | done
  | clean
  | corrected
  | resolved
  | noSolution
  | ambiguous
  | illegal
  deriving DecidableEq, Repr

/-- R28: the value of a code. -/
def codeBits : Code → BitVec 4
  | .none => 0x0#4
  | .done => 0x1#4
  | .clean => 0x2#4
  | .corrected => 0x3#4
  | .resolved => 0x4#4
  | .noSolution => 0x5#4
  | .ambiguous => 0x6#4
  | .illegal => 0xF#4

/-- R27, R79: a STAT word from its fields, the reserved bits 0. -/
def packStat (count : BitVec 5) (pos : BitVec 3) (op code : BitVec 4) : Word :=
  0#11 ++ count ++ 0#5 ++ pos ++ op ++ code

/-- R27: `STAT.CODE`. -/
def statCode (w : Word) : BitVec 4 := w.extractLsb' 0 4

/-- R27: `STAT.OP`. -/
def statOp (w : Word) : BitVec 4 := w.extractLsb' 4 4

/-- R27: `STAT.POS`. -/
def statPos (w : Word) : BitVec 3 := w.extractLsb' 8 3

/-- R27: `STAT.MATCHES`. -/
def statMatches (w : Word) : BitVec 5 := w.extractLsb' 16 5

end Sys2Proof.Machine
end

