-- ==== Sys2Proof/WellFormed.lean ====
section
/-! DEFINITION. Which instructions a legal command word can denote (spec/30_encoding.md R74). The widths of the fields
are in their types; the one check left is that a block operand is canonical. -/

namespace Sys2Proof

/-- R74: a block operand is canonical when no erased position carries value bit 1. -/
def canonical (val era : Mask) : Bool := val &&& era == 0

/-- R74: ENC has no further condition (its operand is the four-bit field itself); SYN and DEC take a canonical block. -/
def Instr.wellFormed : Instr → Bool
  | .enc _ => true
  | .syn val era => canonical val era
  | .dec val era => canonical val era

end Sys2Proof
end

