-- ==== Sys2Proof/Decode.lean ====
section
/-! DEFINITION. The command word (spec/30_encoding.md): its fields, which words are legal, the decoder (total, rejecting
by name), the encoder, and the byte order of the bus (spec/20_memory.md R53). -/

namespace Sys2Proof

/-- R70: `OP`, bits [3:0]. -/
def opField (w : Word) : BitVec 4 := w.extractLsb' 0 4

/-- R70: `VAL[6:0]`, bits [14:8]. -/
def valField (w : Word) : Mask := w.extractLsb' 8 7

/-- R70: `ERA[6:0]`, bits [22:16]. -/
def eraField (w : Word) : Mask := w.extractLsb' 16 7

/-- R70: the reserved bits [7:4], [15] and [31:23]. -/
def reservedMask : Word := 0xFF8080F0#32

/-- R71: the opcode of ENC. -/
def opEnc : BitVec 4 := 0x1#4

/-- R71: the opcode of SYN. -/
def opSyn : BitVec 4 := 0x2#4

/-- R71: the opcode of DEC. -/
def opDec : BitVec 4 := 0x3#4

/-- R74: `Legal(w)`, conjunct by conjunct. -/
def legal (w : Word) : Bool :=
  (opField w == opEnc || opField w == opSyn || opField w == opDec) &&
  (w &&& reservedMask == 0) &&
  (opField w != opEnc || (w.extractLsb' 12 3 == 0#3 && eraField w == 0)) &&
  (!(opField w == opSyn || opField w == opDec) || canonical (valField w) (eraField w))

/-- Why a word is no instruction. The four reasons of R74 that spec/60_exceptions.md R203 lists; the core reports none of
them apart (R203), so they name the rejection and nothing more. `truncated`: fewer bytes than one word (R83).
DESIGN CHOICE (notes/assumptions/17). -/
inductive DecodeError where
  | badOp
  | reservedBitSet
  | encOperandTooWide
  | nonCanonicalBlock
  | truncated
  deriving DecidableEq, Repr

/-- A block operand, where it is canonical (R74). -/
def decodeBlock (make : Mask → Mask → Instr) (w : Word) : Except DecodeError Instr :=
  if canonical (valField w) (eraField w) then .ok (make (valField w) (eraField w)) else .error .nonCanonicalBlock

/-- The instruction a command word denotes (R71 to R76), or the reason it is illegal. -/
def decode (w : Word) : Except DecodeError Instr :=
  if w &&& reservedMask ≠ 0 then .error .reservedBitSet
  else if opField w = opEnc then
    if w.extractLsb' 12 3 = 0#3 ∧ eraField w = 0 then .ok (.enc (w.extractLsb' 8 4)) else .error .encOperandTooWide
  else if opField w = opSyn then decodeBlock .syn w
  else if opField w = opDec then decodeBlock .dec w
  else .error .badOp

/-- R70: a command word put together from its fields, the reserved bits 0. -/
def commandWord (op : BitVec 4) (val era : Mask) : Word := 0#9 ++ era ++ 0#1 ++ val ++ 0#4 ++ op

/-- R70 to R73: the word of an instruction. -/
def encode : Instr → Word
  | .enc d => commandWord opEnc (0#3 ++ d) 0
  | .syn val era => commandWord opSyn val era
  | .dec val era => commandWord opDec val era

/-- R53: the bytes of a word, the byte of bits [7:0] at the lowest address. -/
def wordBytes (w : Word) : List Byte :=
  [w.extractLsb' 0 8, w.extractLsb' 8 8, w.extractLsb' 16 8, w.extractLsb' 24 8]

/-- R53: the word in four bytes, lowest address first. -/
def wordOfBytes (b0 b1 b2 b3 : Byte) : Word := b3 ++ b2 ++ b1 ++ b0

/-- Decoding on bytes: every command is one 32-bit word (R83). Gives the instruction and the bytes after it. -/
def decodeBytes : List Byte → Except DecodeError (Instr × List Byte)
  | b0 :: b1 :: b2 :: b3 :: rest =>
    match decode (wordOfBytes b0 b1 b2 b3) with
    | .ok i => .ok (i, rest)
    | .error e => .error e
  | _ => .error .truncated

/-- The word whose low `nbits` bits are those of `w`, every bit above them 0. -/
def tableWord (nbits w : Nat) : Word := BitVec.ofNat 32 (w % 2 ^ nbits)

/-- What the decoder reads from a word given as spec/opcode_table.json numbers its bits (bit 0 least significant). -/
def decodeTableWord (nbits w : Nat) : Option Instr :=
  match decodeBytes (wordBytes (tableWord nbits w)) with
  | .ok (i, _) => some i
  | .error _ => none

end Sys2Proof
end

