-- ==== Sys2Proof/Machine/Operands.lean ====
section
/-! DEFINITION. Operand and result forms: the block and nibble operands (spec/30_encoding.md R72, R73, R78), the
positions of a block (spec/10_state.md R31) and the layout of RES (R25). -/

namespace Sys2Proof.Machine

/-- R31: the symbols of a block, position 0 first. -/
def blockSymbols (b : Block) : List Symbol := [b.p1, b.p2, b.d1, b.p4, b.d2, b.d3, b.d4]

/-- The symbol is 1. -/
def isOne : Symbol → Bool
  | .bit b => b
  | .erased => false

/-- The symbol is `?`. -/
def isErased : Symbol → Bool
  | .bit _ => false
  | .erased => true

/-- R72: the symbol at position `i` of the operand `(VAL, ERA)`. -/
def operandSymbol (val era : Mask) (i : Nat) : Symbol :=
  if era.getLsbD i then .erased else .bit (val.getLsbD i)

/-- R72: the block operand of SYN and DEC. -/
def blockOperand (val era : Mask) : Block :=
  { p1 := operandSymbol val era 0, p2 := operandSymbol val era 1, d1 := operandSymbol val era 2,
    p4 := operandSymbol val era 3, d2 := operandSymbol val era 4, d3 := operandSymbol val era 5,
    d4 := operandSymbol val era 6 }

/-- R73: the nibble operand of ENC. -/
def nibbleOperand (d : BitVec 4) : Nibble :=
  { d1 := d.getLsbD 0, d2 := d.getLsbD 1, d3 := d.getLsbD 2, d4 := d.getLsbD 3 }

/-- One flag as a field of width 1. -/
def flag (b : Bool) : BitVec 1 := BitVec.ofBool b

/-- Seven flags as a field, position 0 in bit 0. -/
def mask7 (b0 b1 b2 b3 b4 b5 b6 : Bool) : Mask :=
  flag b6 ++ flag b5 ++ flag b4 ++ flag b3 ++ flag b2 ++ flag b1 ++ flag b0

/-- R78: the VAL field that spells a block. -/
def blockVal (b : Block) : Mask :=
  mask7 (isOne b.p1) (isOne b.p2) (isOne b.d1) (isOne b.p4) (isOne b.d2) (isOne b.d3) (isOne b.d4)

/-- R78: the ERA field that spells a block. -/
def blockEra (b : Block) : Mask :=
  mask7 (isErased b.p1) (isErased b.p2) (isErased b.d1) (isErased b.p4) (isErased b.d2) (isErased b.d3)
    (isErased b.d4)

/-- R78: the VAL[3:0] field that spells a nibble. -/
def nibbleField (n : Nibble) : BitVec 4 := flag n.d4 ++ flag n.d3 ++ flag n.d2 ++ flag n.d1

/-- R25, R79: a RES word from its fields, the reserved bits 0. -/
def packRes (op : BitVec 4) (val era : Mask) : Word := 0#9 ++ era ++ 0#1 ++ val ++ 0#4 ++ op

/-- R25: `RES.OP`. -/
def resOp (w : Word) : BitVec 4 := w.extractLsb' 0 4

/-- R25: `RES.VAL[6:0]`. -/
def resVal (w : Word) : Mask := w.extractLsb' 8 7

/-- R25: `RES.ERA[6:0]`. -/
def resEra (w : Word) : Mask := w.extractLsb' 16 7

/-- R190: `text(r.VAL[6:0])`, the codeword in a result word, position 0 first. -/
def codewordSymbols (r : Word) : List Symbol :=
  [.bit ((resVal r).getLsbD 0), .bit ((resVal r).getLsbD 1), .bit ((resVal r).getLsbD 2),
   .bit ((resVal r).getLsbD 3), .bit ((resVal r).getLsbD 4), .bit ((resVal r).getLsbD 5),
   .bit ((resVal r).getLsbD 6)]

/-- R191: `sym4(r)`, the four output symbols in a result word. -/
def nibbleSymbols (r : Word) : List Symbol :=
  [operandSymbol (resVal r) (resEra r) 0, operandSymbol (resVal r) (resEra r) 1,
   operandSymbol (resVal r) (resEra r) 2, operandSymbol (resVal r) (resEra r) 3]

/-- R190, R191: the symbols of a result word. -/
def resultSymbols : ResultKind → Word → List Symbol
  | .codeword => codewordSymbols
  | .partialNibble => nibbleSymbols

end Sys2Proof.Machine
end

