-- ==== Sys2Proof/Machine/Ops.lean ====
section
/-! DEFINITION. The named operations over the core's registers: completing a legal command (spec/30_encoding.md R79),
rejecting an illegal one (spec/60_exceptions.md R202, which stands in the place of an exception: the core has none, R200,
R206), the reset event (spec/70_reset_and_hazards.md R230), and the bus transactions of spec/20_memory.md. -/

namespace Sys2Proof.Machine

/-- R79: what a legal command writes: all of RES and all of STAT (R35), together (R57). -/
def State.commit (op : BitVec 4) (val era : Mask) (code : Code) (pos : BitVec 3) (count : BitVec 5) (s : State) : State :=
  { s with res := packRes op val era, stat := packStat count pos op (codeBits code) }

/-- R202: an illegal command word. STAT gets ILLEGAL and the raw OP field, RES keeps its value, nothing is saved and no
handler runs (R200, R203, R206). -/
def State.rejectCommand (w : Word) (s : State) : State :=
  { s with stat := packStat 0 0 (opField w) (codeBits .illegal) }

/-- R230, R231: the reset event. Both registers become 0, a command in flight is abandoned. -/
def State.applyReset (s : State) : State :=
  { s with res := 0, stat := 0, inFlight := none, wasReset := true }

/-- R58: the core accepts a command and holds the write back until it completes. -/
def State.accept (w : Word) (s : State) : State := { s with inFlight := some w }

/-- The command port is free again. -/
def State.release (s : State) : State := { s with inFlight := none }

/-- R51: the register at an aligned offset. -/
def regAt (off : Offset) : Option Reg :=
  if off = 0x0#4 then some .cmd
  else if off = 0x4#4 then some .res
  else if off = 0x8#4 then some .stat
  else if off = 0xC#4 then some .rsv
  else none

/-- R52: the register a transaction reaches: only 4-byte accesses at a multiple of 4 are defined. -/
def accessReg (off : Offset) (width : Nat) : Option Reg := if width = 4 then regAt off else none

/-- R54, R56: what a register reads as. RES and STAT read as any value before the first reset (R233). CMD and offset 0x0C read
0 before it too: DESIGN CHOICE (notes/assumptions/22). -/
def State.readReg (s : State) : Reg → Word
  | .cmd => 0
  | .res => if s.wasReset then s.res else Config.powerUpRead s.draws
  | .stat => if s.wasReset then s.stat else Config.powerUpRead s.draws
  | .rsv => 0

/-- R51 to R56: `BusRead(off)`. A read changes no state (R54), so it gives the value alone. -/
def State.busRead (s : State) (off : Offset) (width : Nat) : Except Refusal Word :=
  match accessReg off width with
  | some r => .ok (s.readReg r)
  | none => .error .undefinedAccess

/-- R55, R58: a 4-byte write to a register. A CMD write starts a command, which a host may not do before the first reset
(R233, R234); every other write is accepted and ignored, before the first reset too: DESIGN CHOICE (notes/assumptions/22). -/
def State.writeReg (s : State) (r : Reg) (v : Word) : Except Refusal State :=
  match r with
  | .cmd => if s.wasReset then .ok (s.accept v) else .error .commandBeforeReset
  | .res => .ok s
  | .stat => .ok s
  | .rsv => .ok s

/-- R51 to R58: `BusWrite(off, v)`. -/
def State.busWrite (s : State) (off : Offset) (width : Nat) (v : Word) : Except Refusal State :=
  match accessReg off width with
  | some r => s.writeReg r v
  | none => .error .undefinedAccess

/-- The reset event that arrives in this step. -/
def State.resetNow (s : State) : ResetInput := s.resets.headD .quiet

/-- The state with this step's reset input used up. -/
def State.dropReset (s : State) : State := { s with resets := s.resets.tail }

/-- R50, R13: the byte address of an offset of the window at `base`. -/
def windowAddress (base : Nat) (off : Offset) : Nat := base + off.toNat

/-- R50: the offset of a byte address in the window at `base`, where it lies in the window. -/
def windowOffset (base addr : Nat) : Option Offset :=
  if base ≤ addr ∧ addr < base + 16 then some (BitVec.ofNat 4 (addr - base)) else none

/-- R13, R50: `MemRead(addr, width)` as the core sees it: a bus read where the address lies in its window, nothing
otherwise (what lies elsewhere in the host's address space is not the core's, R60). DEDUCED (notes/assumptions/19).
Every instance answers at `Config.hamBase` in its own state: DESIGN CHOICE (notes/assumptions/20). -/
def State.memRead (s : State) (addr width : Nat) : Option (Except Refusal Word) :=
  (windowOffset Config.hamBase addr).map (fun off => s.busRead off width)

/-- R13, R50: `MemWrite(addr, width, v)` as the core sees it; as `memRead` (notes/assumptions/19 and 20). -/
def State.memWrite (s : State) (addr width : Nat) (v : Word) : Option (Except Refusal State) :=
  (windowOffset Config.hamBase addr).map (fun off => s.busWrite off width v)

end Sys2Proof.Machine
end

