-- ==== Sys2Proof/Machine/Syndrome.lean ====
section
/-! DEFINITION. SYN: the syndrome of one block (spec/42_syndrome.md). -/

namespace Sys2Proof.Machine

/-- The three parity checks, k = 1, 2, 4 (R121). -/
inductive Check where
  | s1
  | s2
  | s4
  deriving DecidableEq, Repr

/-- R121: the symbols a check covers: those whose 1-based Hamming index has the bit of weight k set (positions
{0,2,4,6}, {1,2,5,6}, {3,4,5,6}). -/
def covered (b : Block) : Check → List Symbol
  | .s1 => [b.p1, b.d1, b.d2, b.d4]
  | .s2 => [b.p2, b.d1, b.d3, b.d4]
  | .s4 => [b.p4, b.d2, b.d3, b.d4]

/-- R122: the value of a check over the symbols it covers: the XOR of their bits, or `none` (⊥) where one of them is
erased. -/
def xorOfBits : List Symbol → Option Bool
  | [] => some false
  | .erased :: _ => none
  | .bit b :: rest =>
    match xorOfBits rest with
    | some c => some (b ^^ c)
    | none => none

/-- R122: the value of a check. -/
def checkValue (b : Block) (k : Check) : Option Bool := xorOfBits (covered b k)

/-- R120: the three syndrome components. -/
structure Syndrome where
  s1 : Option Bool
  s2 : Option Bool
  s4 : Option Bool
  deriving DecidableEq, Repr

/-- R120: `Syn(b)`. -/
def syndrome (b : Block) : Syndrome :=
  { s1 := checkValue b .s1, s2 := checkValue b .s2, s4 := checkValue b .s4 }

/-- R127: the bit (s = 1) of a component. -/
def componentOne : Option Bool → Bool
  | some b => b
  | none => false

/-- R127: the bit (s = ⊥) of a component. -/
def componentUnknown : Option Bool → Bool
  | some _ => false
  | none => true

/-- A component that is determined and 0. -/
def componentZero : Option Bool → Bool
  | some b => !b
  | none => false

/-- R124, R145: the syndrome is (0,0,0). -/
def isZeroSyndrome (y : Syndrome) : Bool := componentZero y.s1 && componentZero y.s2 && componentZero y.s4

/-- R123: the syndrome number `4·s4 + 2·s2 + s1`. It is used where no component is ⊥. -/
def syndromeNumber (y : Syndrome) : BitVec 3 :=
  flag (componentOne y.s4) ++ flag (componentOne y.s2) ++ flag (componentOne y.s1)

/-- R127: the value bits SYN reports. -/
def synVal (y : Syndrome) : Mask :=
  mask7 (componentOne y.s1) (componentOne y.s2) (componentOne y.s4) false false false false

/-- R127: the indeterminate flags SYN reports. -/
def synEra (y : Syndrome) : Mask :=
  mask7 (componentUnknown y.s1) (componentUnknown y.s2) (componentUnknown y.s4) false false false false

/-- R120, R127: the command SYN. -/
def execSyn (val era : Mask) (s : State) : Host.Outcome State Fault Refusal :=
  .next (s.commit opSyn (synVal (syndrome (blockOperand val era))) (synEra (syndrome (blockOperand val era))) .done 0 0)

end Sys2Proof.Machine
end

