-- ==== Sys2Proof/Machine/Decoder.lean ====
section
/-! DEFINITION. DEC: decode one block with erasure resolution (spec/43_decode.md). -/

namespace Sys2Proof.Machine

/-- R143: the data symbols of a block, positions 2, 4, 5 and 6 in that order. -/
def dataSymbols (b : Block) : PartialNibble := { d1 := b.d1, d2 := b.d2, d3 := b.d3, d4 := b.d4 }

/-- R140: `pack`, the value bits of a partial nibble. -/
def packVal (q : PartialNibble) : Mask :=
  mask7 (isOne q.d1) (isOne q.d2) (isOne q.d3) (isOne q.d4) false false false

/-- R140: `pack`, the unresolved flags of a partial nibble. -/
def packEra (q : PartialNibble) : Mask :=
  mask7 (isErased q.d1) (isErased q.d2) (isErased q.d3) (isErased q.d4) false false false

/-- R141: the set of erased positions is not empty. -/
def hasErasure (b : Block) : Bool := (blockSymbols b).any isErased

/-- The symbol with its bit flipped; an erased symbol has no bit. -/
def flipSymbol : Symbol → Symbol
  | .bit b => .bit (!b)
  | .erased => .erased

/-- R142: the block with the bit at the 1-based Hamming index `h`, the 0-based position `h − 1`, flipped; index 0 names no
position. -/
def flipIndex (b : Block) (h : Nat) : Block :=
  match h with
  | 1 => { b with p1 := flipSymbol b.p1 }
  | 2 => { b with p2 := flipSymbol b.p2 }
  | 3 => { b with d1 := flipSymbol b.d1 }
  | 4 => { b with p4 := flipSymbol b.p4 }
  | 5 => { b with d2 := flipSymbol b.d2 }
  | 6 => { b with d3 := flipSymbol b.d3 }
  | 7 => { b with d4 := flipSymbol b.d4 }
  | _ => b

/-- R142: the single-error correction: flip the index the syndrome number names. -/
def correctSingle (b : Block) : Block := flipIndex b (syndromeNumber (syndrome b)).toNat

/-- R144: what a candidate has at one position: the received bit, or either bit where the position is erased. -/
def fillings : Symbol → List Symbol
  | .bit b => [.bit b]
  | .erased => [.bit false, .bit true]

/-- R144: the candidates: the block with its erased positions set to each assignment of bits, 2^|E| of them. -/
def candidates (b : Block) : List Block :=
  (fillings b.p1).flatMap fun p1 =>
  (fillings b.p2).flatMap fun p2 =>
  (fillings b.d1).flatMap fun d1 =>
  (fillings b.p4).flatMap fun p4 =>
  (fillings b.d2).flatMap fun d2 =>
  (fillings b.d3).flatMap fun d3 =>
  (fillings b.d4).map fun d4 => { p1 := p1, p2 := p2, d1 := d1, p4 := p4, d2 := d2, d3 := d3, d4 := d4 }

/-- R145: the matching candidates of a block: those whose syndrome is (0,0,0). -/
def matching (b : Block) : List Block := (candidates b).filter (fun w => isZeroSyndrome (syndrome w))

/-- What DEC reports (R140): the output symbols, the code, the corrected index and the number of matching candidates. -/
structure Decoded where
  data : PartialNibble
  code : Code
  pos : BitVec 3
  count : BitVec 5
  deriving DecidableEq, Repr

/-- R142: the path with no erasures. -/
def decodeBits (b : Block) : Decoded :=
  { data := dataSymbols (correctSingle b)
    code := if syndromeNumber (syndrome b) = 0 then .clean else .corrected
    pos := syndromeNumber (syndrome b)
    count := 0 }

/-- R146 to R148: the outcome of the search, from the matching candidates `ws`. -/
def searchOutcome (b : Block) (ws : List Block) : Decoded :=
  match ws with
  | [] => { data := dataSymbols b, code := .noSolution, pos := 0, count := 0 }
  | [w] => { data := dataSymbols w, code := .resolved, pos := 0, count := 1 }
  | _ => { data := dataSymbols b, code := .ambiguous, pos := 0, count := BitVec.ofNat 5 ws.length }

/-- R140, R141: `DEC` on a block. The path depends only on whether there is an erasure. -/
def decodeSymbols (b : Block) : Decoded :=
  if hasErasure b then searchOutcome b (matching b) else decodeBits b

/-- R140, R79: the command DEC. -/
def execDec (val era : Mask) (s : State) : Host.Outcome State Fault Refusal :=
  let r := decodeSymbols (blockOperand val era)
  .next (s.commit opDec (packVal r.data) (packEra r.data) r.code r.pos r.count)

end Sys2Proof.Machine
end

