-- ==== Sys2Proof/Machine/Encode.lean ====
section
/-! DEFINITION. ENC: encode one nibble (spec/41_encode.md). -/

namespace Sys2Proof.Machine

/-- R101: p1. -/
def parity1 (n : Nibble) : Bool := n.d1 ^^ n.d2 ^^ n.d4

/-- R101: p2. -/
def parity2 (n : Nibble) : Bool := n.d1 ^^ n.d3 ^^ n.d4

/-- R101: p4. -/
def parity4 (n : Nibble) : Bool := n.d2 ^^ n.d3 ^^ n.d4

/-- R102: the codeword `[p1, p2, d1, p4, d2, d3, d4]`. -/
def codeword (n : Nibble) : Block :=
  { p1 := .bit (parity1 n), p2 := .bit (parity2 n), d1 := .bit n.d1, p4 := .bit (parity4 n), d2 := .bit n.d2,
    d3 := .bit n.d3, d4 := .bit n.d4 }

/-- R100: `ENC(n)`, the codeword as seven bits, position `i` in bit `i`. -/
def encBits (d : BitVec 4) : Mask := blockVal (codeword (nibbleOperand d))

/-- R100, R103: the command ENC. -/
def execEnc (d : BitVec 4) (s : State) : Host.Outcome State Fault Refusal :=
  .next (s.commit opEnc (encBits d) 0 .done 0 0)

end Sys2Proof.Machine
end

