-- ==== Sys2Proof/Machine/Dispatch.lean ====
section
/-! DEFINITION. One arm per instruction (spec/30_encoding.md R71, R79). -/

namespace Sys2Proof.Machine

def exec (i : Instr) (s : State) : Host.Outcome State Fault Refusal :=
  match i with
  | .enc d => Sys2Proof.Machine.execEnc d s
  | .syn val era => Sys2Proof.Machine.execSyn val era s
  | .dec val era => Sys2Proof.Machine.execDec val era s

end Sys2Proof.Machine
end

