-- ==== Sys2Proof/Machine/Command.lean ====
section
/-! DEFINITION. Executing a command word (spec/30_encoding.md R79). -/

namespace Sys2Proof.Machine

/-- R79: `Execute(w)`: legality is decided on the whole word before any operation runs (R204); a legal word runs its
instruction, an illegal one is rejected (R202). -/
def executeWord (w : Word) (s : State) : Host.Outcome State Fault Refusal :=
  match decode w with
  | .ok i => exec i s
  | .error _ => .next (s.rejectCommand w)

/-- R58: the command in flight completes: its results are in RES and STAT and the port is free again. -/
def completeCommand (w : Word) (s : State) : Host.Outcome State Fault Refusal := executeWord w s.release

end Sys2Proof.Machine
end

