-- ==== Sys2Proof/Machine/HostTurn.lean ====
section
/-! DEFINITION. What a host does in its turn: the statements of spec/30_encoding.md R81 over the bus transactions of
spec/20_memory.md, and the write that a simultaneous reset cuts off (spec/70_reset_and_hazards.md R232). -/

namespace Sys2Proof.Machine

/-- The value stored in a variable, if something has been stored in it. -/
def lookupVar (x : Var) : List (Var × Word) → Option Word
  | [] => none
  | (y, v) :: rest => if x = y then some v else lookupVar x rest

/-- Storing a variable; the list stays in rising order with one entry a variable. -/
def storeVar (x : Var) (v : Word) : List (Var × Word) → List (Var × Word)
  | [] => [(x, v)]
  | (y, u) :: rest =>
    if x < y then (x, v) :: (y, u) :: rest
    else if x = y then (x, v) :: rest
    else (y, u) :: storeVar x v rest

/-- A comparison or a logical operator gives 1 or 0, as in C. PRESUMED (notes/assumptions/18). -/
def truth (b : Bool) : Word := if b then 1 else 0

/-- R81: the operators: unsigned, modulo 2^32. A shift by 32 or more is a free value (notes/assumptions/7). -/
def evalBin (op : BinOp) (a b : Word) : Word :=
  match op with
  | .add => a + b
  | .sub => a - b
  | .shl => if b.toNat < 32 then a <<< b.toNat else Config.overshiftLeft a b
  | .shr => if b.toNat < 32 then a >>> b.toNat else Config.overshiftRight a b
  | .and => a &&& b
  | .or => a ||| b
  | .xor => a ^^^ b
  | .eq => truth (a == b)
  | .ne => truth (a != b)
  | .lt => truth (decide (a.toNat < b.toNat))
  | .le => truth (decide (a.toNat ≤ b.toNat))
  | .gt => truth (decide (b.toNat < a.toNat))
  | .ge => truth (decide (b.toNat ≤ a.toNat))
  | .land => truth (a != 0 && b != 0)
  | .lor => truth (a != 0 || b != 0)

/-- R81, R238: a variable's value; an undefined one reads as the free value of draw `n`. -/
def readVar (n : Nat) (vars : List (Var × Word)) (x : Var) : Word := (lookupVar x vars).getD (Config.undefinedVar n x)

/-- R81: the value of an expression. -/
def evalExpr (n : Nat) (vars : List (Var × Word)) : Expr → Word
  | .const w => w
  | .var x => readVar n vars x
  | .not e => ~~~ evalExpr n vars e
  | .bin op a b => evalBin op (evalExpr n vars a) (evalExpr n vars b)

/-- The host goes on to its next statement. -/
def Driver.advance (d : Driver) : Driver := { d with pc := d.pc + 1 }

/-- The host stores a value in a variable and goes on. -/
def Driver.assign (x : Var) (v : Word) (d : Driver) : Driver := { d with vars := storeVar x v d.vars, pc := d.pc + 1 }

/-- R81: the host goes to a label, the first of that name. DESIGN CHOICE (notes/assumptions/8). -/
def Driver.jump (d : Driver) (l : Label) : Option Driver :=
  match d.prog.findIdx? (fun st => st == .label l) with
  | some n => some { d with pc := n }
  | none => none

/-- R239: the host has ended. -/
def Driver.stop (d : Driver) : Driver := { d with halted := true }

/-- R190, R191: the host appends the symbols of the words it read to its stream output. DESIGN CHOICE
(notes/assumptions/15). -/
def Driver.emit (n : Nat) (kind : ResultKind) (xs : List Var) (d : Driver) : Driver :=
  { d with output := d.output ++ xs.flatMap (fun x => resultSymbols kind (readVar n d.vars x)), pc := d.pc + 1 }

/-- Host `k` becomes `d`. -/
def State.setDriver (s : State) (k : Nat) (d : Driver) : State := { s with drivers := s.drivers.set k d }

/-- The host whose turn it is. -/
def State.turn (s : State) : Nat := s.schedule.headD 0

/-- The state with one turn of the schedule used up and the next draw taken. -/
def State.nextTurn (s : State) : State := { s with schedule := s.schedule.tail, draws := s.draws + 1 }

/-- The statement a host executes next; none after `HALT` (R239) or past the end of its program, where it issues nothing
more (a hang, R239). DESIGN CHOICE (notes/assumptions/13). -/
def Driver.statement (d : Driver) : Option Stmt := if d.halted then none else d.prog[d.pc]?

/-- `WR`: the write, then the host goes on; where the access is refused it is stuck (R52). The refusal is of the machine's
step, so with several hosts none goes on in this order of turns: DESIGN CHOICE (notes/assumptions/23). -/
def hostWrite (off : Offset) (width : Nat) (v : Word) (k : Nat) (d : Driver) (s : State) :
    Host.Outcome State Fault Refusal :=
  match s.busWrite off width v with
  | .ok t => .next (t.setDriver k d.advance)
  | .error r => .refused r

/-- `RD`: the read, then the host stores the value and goes on; where the access is refused it is stuck (R52), and the
machine's step with it: DESIGN CHOICE (notes/assumptions/23). -/
def hostRead (off : Offset) (width : Nat) (x : Var) (k : Nat) (d : Driver) (s : State) :
    Host.Outcome State Fault Refusal :=
  match s.busRead off width with
  | .ok v => .next (s.setDriver k (d.assign x v))
  | .error r => .refused r

/-- `JMP`, and `BR` where it is taken. -/
def hostJump (l : Label) (k : Nat) (d : Driver) (s : State) : Host.Outcome State Fault Refusal :=
  match d.jump l with
  | some d' => .next (s.setDriver k d')
  | none => .fault (.unknownLabel l)

/-- R81: one statement of host `k`, which is `d`. -/
def runStatement (st : Stmt) (k : Nat) (d : Driver) (s : State) : Host.Outcome State Fault Refusal :=
  match st with
  | .wr off width e => hostWrite off width (evalExpr s.draws d.vars e) k d s
  | .rd off width x => hostRead off width x k d s
  | .set x e => .next (s.setDriver k (d.assign x (evalExpr s.draws d.vars e)))
  | .br cond l =>
    if evalExpr s.draws d.vars cond ≠ 0 then hostJump l k d s else .next (s.setDriver k d.advance)
  | .jmp l => hostJump l k d s
  | .rst => .next (s.applyReset.setDriver k d.advance)
  | .halt => .next (s.setDriver k d.stop)
  | .label _ => .next (s.setDriver k d.advance)
  | .result kind xs => .next (s.setDriver k (d.emit s.draws kind xs))

/-- One turn on the bus: the host whose turn it is executes one statement, if it has one (R20, R59, R64). A
statement that is refused or faults stops the machine's step: DESIGN CHOICE (notes/assumptions/23). -/
def hostTurn (s : State) : Host.Outcome State Fault Refusal :=
  match s.drivers[s.turn]? with
  | none => .next s.nextTurn
  | some d =>
    match d.statement with
    | none => .next s.nextTurn
    | some st => runStatement st s.turn d s.nextTurn

/-- The statement is a CMD write (R51, R52, R58). -/
def isCommandWrite : Stmt → Bool
  | .wr off width _ => accessReg off width == some .cmd
  | _ => false

/-- R231, R232: a CMD write that arrives together with the reset event ends without effect, and its host goes on. Any
other statement waits for the next step. DEDUCED (notes/assumptions/4). -/
def State.cutOffWrite (s : State) : State :=
  match s.drivers[s.turn]? with
  | none => s
  | some d =>
    match d.statement with
    | none => s
    | some st => if isCommandWrite st then s.nextTurn.setDriver s.turn d.advance else s

/-- R231, R232: the reset event together with whatever the core is doing: a command in flight is abandoned; with none in
flight, a CMD write that arrives in this step is. -/
def State.resetWithWrite (s : State) : State :=
  if s.inFlight = none then s.applyReset.cutOffWrite else s.applyReset

end Sys2Proof.Machine
end

