-- ==== Sys2Proof/Machine/Cycle.lean ====
section
/-! DEFINITION. What happens in one step: the core handles one transaction at a time (spec/20_memory.md R59), so a step is
the completion of the command in flight, or one host statement, or a reset event. -/

namespace Sys2Proof.Machine

/-- A step in which no reset event arrives: the command in flight completes before any further transaction (R58, R59);
with none in flight a host has its turn. -/
def quietCycle (s : State) : Host.Outcome State Fault Refusal :=
  match s.inFlight with
  | some w => completeCommand w s
  | none => hostTurn s

/-- One step, with the reset event that arrives in it taken first (R230 to R232). -/
def cycle (s : State) : Host.Outcome State Fault Refusal :=
  match s.resetNow with
  | .quiet => quietCycle s.dropReset
  | .alone => .next s.dropReset.applyReset
  | .withWrite => .next s.dropReset.resetWithWrite

end Sys2Proof.Machine
end

