-- ==== Sys2Proof/Machine/Step.lean ====
section
/-! DEFINITION. The step function, and where a test places a command. -/

namespace Sys2Proof.Machine

/-- One step of the machine (`cycle`). -/
def step (s : State) : Host.Outcome State Fault Refusal := cycle s

/-- The state in which the core has just accepted the given word at its command port, with no reset event in the coming
step, so that the step runs it. The core has no instruction memory and no pc (R22, R50): a program reaches it as CMD
writes (notes/assumptions/10). -/
def State.withFetchWord (s : State) (nbits w : Nat) : State :=
  { s with inFlight := some (tableWord nbits w), resets := .quiet :: s.resets }

end Sys2Proof.Machine
end

