-- ==== Sys2Proof/Machine/Framer.lean ====
section
/-! DEFINITION. The host stream framer (spec/44_host_framer.md): host software that reaches the core only through
`BusWrite(0x00, ·)` and `BusRead(0x04)` (R180), and the expansions of the pseudo-instructions (R190, R191). -/

namespace Sys2Proof.Machine

/-- R183, R184: why the framer rejects a request. -/
inductive Reject where
  | badSymbol
  | lengthMismatch
  deriving DecidableEq, Repr

/-- What a call of the framer ends in; `σ` is the state of what it drives. -/
inductive FramerResult (σ : Type) where
  /-- The request is rejected; no command reaches the core. -/
  | rejected (r : Reject)
  /-- No output: the core was not reset before the call, or, of a call spread over instances, an instance it uses was not,
  or its plan names a block or an instance that does not exist (DESIGN CHOICE, notes/assumptions/25). -/
  | stopped
  /-- The stream output, and the state after the last command. -/
  | output (symbols : List Symbol) (s : σ)
  deriving DecidableEq, Repr

/-- R14: a symbol from its character over `0`, `1`, `?`. -/
def symbolOfChar (c : Char) : Option Symbol :=
  if c = '0' then some (.bit false) else if c = '1' then some (.bit true) else if c = '?' then some .erased else none

/-- R14: the character of a symbol. -/
def charOfSymbol : Symbol → Char
  | .bit false => '0'
  | .bit true => '1'
  | .erased => '?'

/-- A bit from its character over `0`, `1`. -/
def bitOfChar (c : Char) : Option Bool := if c = '0' then some false else if c = '1' then some true else none

/-- Every character of a text through `f`, or nothing where one has no meaning. -/
def parseAll {α : Type} (f : Char → Option α) : List Char → Option (List α)
  | [] => some []
  | c :: rest =>
    match f c, parseAll f rest with
    | some x, some xs => some (x :: xs)
    | _, _ => none

/-- R181: groups of 4 bits, the last right-padded with 0 bits. -/
def nibbleGroups : List Bool → List Nibble
  | [] => []
  | [a] => [⟨a, false, false, false⟩]
  | [a, b] => [⟨a, b, false, false⟩]
  | [a, b, c] => [⟨a, b, c, false⟩]
  | a :: b :: c :: d :: rest => ⟨a, b, c, d⟩ :: nibbleGroups rest

/-- R185: groups of 7 symbols. -/
def blockGroups : List Symbol → List Block
  | a :: b :: c :: d :: e :: f :: g :: rest => ⟨a, b, c, d, e, f, g⟩ :: blockGroups rest
  | _ => []

/-- R73, R78: the ENC word of a nibble. -/
def encWord (n : Nibble) : Word := encode (.enc (nibbleField n))

/-- R78: the SYN word of a block. -/
def synWord (b : Block) : Word := encode (.syn (blockVal b) (blockEra b))

/-- R78: the DEC word of a block. -/
def decWord (b : Block) : Word := encode (.dec (blockVal b) (blockEra b))

/-- R58, R180: `BusWrite(0x00, w)` from its acceptance to its completion, with no reset event and no other host's transaction
in between: DESIGN CHOICE (notes/assumptions/24). -/
def issueCommand (w : Word) (s : State) : Host.Outcome State Fault Refusal :=
  match s.busWrite Reg.cmd.offset 4 w with
  | .error r => .refused r
  | .ok t =>
    match t.inFlight with
    | some v => completeCommand v t
    | none => .next t

/-- R180: one command and the read of its result, `BusRead(0x04)`; nothing comes between them: DESIGN CHOICE
(notes/assumptions/24). -/
def runBlock (w : Word) (s : State) : Option (Word × State) :=
  match issueCommand w s with
  | .next t =>
    match t.busRead Reg.res.offset 4 with
    | .ok r => some (r, t)
    | .error _ => none
  | _ => none

/-- R181, R185: the commands of a stream in order, the results concatenated in order. No block ends the stream (R186).
The run is whole: it looks at neither `State.resets` nor `State.schedule`. DESIGN CHOICE (notes/assumptions/24). -/
def runBlocks (kind : ResultKind) : List Word → State → Option (List Symbol × State)
  | [], s => some ([], s)
  | w :: ws, s =>
    match runBlock w s with
    | none => none
    | some (r, t) =>
      match runBlocks kind ws t with
      | none => none
      | some (out, u) => some (resultSymbols kind r ++ out, u)

/-- The result of a run of commands. -/
def streamResult {σ : Type} : Option (List Symbol × σ) → FramerResult σ
  | some (out, t) => .output out t
  | none => .stopped

/-- R181 to R183: `encode_message`. -/
def encodeMessage (text : List Char) (s : State) : FramerResult State :=
  match parseAll bitOfChar text with
  | none => .rejected .badSymbol
  | some bits => streamResult (runBlocks .codeword ((nibbleGroups bits).map encWord) s)

/-- R184: the length of a decode input is a positive multiple of 7. -/
def decodeLengthOk (n : Nat) : Bool := n != 0 && n % 7 == 0

/-- R184 to R186: `decode_stream`. The length is checked before the alphabet, both before any command. -/
def decodeStream (text : List Char) (s : State) : FramerResult State :=
  if decodeLengthOk text.length then
    match parseAll symbolOfChar text with
    | none => .rejected .badSymbol
    | some symbols => streamResult (runBlocks .partialNibble ((blockGroups symbols).map decWord) s)
  else .rejected .lengthMismatch

/-- R182: the length of an encoded message of `n` bits. -/
def encodedLength (n : Nat) : Nat := 7 * ((n + 3) / 4)

/-- R187, R188: a caller that knows the message length: it rejects a stream of another length and cuts off the padding.
The framer does neither. -/
def decodeMessage (length : Nat) (text : List Char) (s : State) : FramerResult State :=
  if text.length = encodedLength length then
    match decodeStream text s with
    | .output out t => .output (out.take length) t
    | r => r
  else .rejected .lengthMismatch

/-- R190: the statements of the groups of `ENCMSG`, from group `g` on; group `g` is read into variable `g`. Every expansion
uses these same variables: DESIGN CHOICE (notes/assumptions/15). -/
def encStatements : Nat → List Nibble → List Stmt
  | _, [] => []
  | g, n :: rest => .wrReg .cmd (.const (encWord n)) :: .rdReg .res g :: encStatements (g + 1) rest

/-- R190: the expansion of `ENCMSG`. -/
def encMsg (text : List Char) : Except Reject (List Stmt) :=
  match parseAll bitOfChar text with
  | none => .error .badSymbol
  | some bits =>
    .ok (encStatements 0 (nibbleGroups bits) ++ [.result .codeword (List.range (nibbleGroups bits).length)])

/-- R191: the statements of the blocks of `DECSTR`, from block `g` on; RES is read into variable `2g`, STAT into
`2g + 1`. Every expansion uses these same variables: DESIGN CHOICE (notes/assumptions/15). -/
def decStatements : Nat → List Block → List Stmt
  | _, [] => []
  | g, b :: rest =>
    .wrReg .cmd (.const (decWord b)) :: .rdReg .res (2 * g) :: .rdReg .stat (2 * g + 1) :: decStatements (g + 1) rest

/-- R191: the expansion of `DECSTR`. -/
def decStr (text : List Char) : Except Reject (List Stmt) :=
  if decodeLengthOk text.length then
    match parseAll symbolOfChar text with
    | none => .error .badSymbol
    | some symbols =>
      .ok (decStatements 0 (blockGroups symbols) ++
        [.result .partialNibble ((List.range (blockGroups symbols).length).map (2 * ·))])
  else .error .lengthMismatch

end Sys2Proof.Machine
end

