-- ==== Sys2Proof/Machine/Assembler.lean ====
section
/-! DEFINITION. The assembler's command lines (spec/30_encoding.md R80): text to command word (R78), and back. -/

namespace Sys2Proof.Machine

/-- R80: why the assembler refuses a line. -/
inductive AsmError where
  | unknownMnemonic
  | badOperand
  deriving DecidableEq, Repr

/-- A space or a tab. PRESUMED (notes/assumptions/14). -/
def isBlank (c : Char) : Bool := c == ' ' || c == '\t'

/-- R80: `;` starts a comment. -/
def withoutComment (line : List Char) : List Char := line.takeWhile (· != ';')

/-- The words of a line, each a run of characters with no blank in it; `word` is the run read so far, last first. -/
def splitWords (word : List Char) : List Char → List (List Char)
  | [] => if word.isEmpty then [] else [word.reverse]
  | c :: rest =>
    if isBlank c then (if word.isEmpty then splitWords [] rest else word.reverse :: splitWords [] rest)
    else splitWords (c :: word) rest

/-- A hexadecimal digit of either case. PRESUMED (notes/assumptions/14). -/
def hexDigit (c : Char) : Option (BitVec 4) :=
  if '0' ≤ c ∧ c ≤ '9' then some (BitVec.ofNat 4 (c.toNat - 48))
  else if 'A' ≤ c ∧ c ≤ 'F' then some (BitVec.ofNat 4 (c.toNat - 55))
  else if 'a' ≤ c ∧ c ≤ 'f' then some (BitVec.ofNat 4 (c.toNat - 87))
  else none

/-- R80: `0x<8 hex digits>`. -/
def rawWord : List Char → Option Word
  | '0' :: 'x' :: digits =>
    match parseAll hexDigit digits with
    | some [a, b, c, d, e, f, g, h] => some (a ++ b ++ c ++ d ++ e ++ f ++ g ++ h)
    | _ => none
  | _ => none

/-- R73, R80: the ENC operand, four characters over 0 and 1. -/
def nibbleText (text : List Char) : Option Nibble :=
  match parseAll bitOfChar text with
  | some [a, b, c, d] => some ⟨a, b, c, d⟩
  | _ => none

/-- R78, R80: the SYN and DEC operand, seven characters over 0, 1 and `?`. -/
def blockText (text : List Char) : Option Block :=
  match parseAll symbolOfChar text with
  | some [a, b, c, d, e, f, g] => some ⟨a, b, c, d, e, f, g⟩
  | _ => none

/-- The word of a well-spelled operand, or the refusal. -/
def asmWord {α : Type} (word : α → Word) : Option α → Except AsmError (Option Word)
  | some x => .ok (some (word x))
  | none => .error .badOperand

/-- R80: the command word of a line that is split into words; nothing for an empty line. A `.cmd` operand that is not `0x` and
8 hexadecimal digits is refused as a bad operand: DESIGN CHOICE (notes/assumptions/14). A known mnemonic with
another number of operands is refused as a bad operand. PRESUMED (notes/assumptions/14). -/
def assembleWords : List (List Char) → Except AsmError (Option Word)
  | [] => .ok none
  | [['E', 'N', 'C'], operand] => asmWord encWord (nibbleText operand)
  | [['S', 'Y', 'N'], operand] => asmWord synWord (blockText operand)
  | [['D', 'E', 'C'], operand] => asmWord decWord (blockText operand)
  | [['.', 'c', 'm', 'd'], operand] => asmWord id (rawWord operand)
  | mnemonic :: _ =>
    if mnemonic = ['E', 'N', 'C'] ∨ mnemonic = ['S', 'Y', 'N'] ∨ mnemonic = ['D', 'E', 'C'] ∨
        mnemonic = ['.', 'c', 'm', 'd'] then .error .badOperand
    else .error .unknownMnemonic

/-- R80: one command line: the word it writes to CMD. A label is a host statement of its own (R81): in front of a command on
one line, as spec/95_test_vectors.md P3 prints it, it is refused as an unknown mnemonic. DESIGN CHOICE
(notes/assumptions/14). -/
def assembleLine (line : List Char) : Except AsmError (Option Word) := assembleWords (splitWords [] (withoutComment line))

/-- R80: "Each command line means `WR CMD, <word>`." -/
def assembleStatement (line : List Char) : Except AsmError (Option Stmt) :=
  match assembleLine line with
  | .ok (some w) => .ok (some (.wrReg .cmd (.const w)))
  | .ok none => .ok none
  | .error e => .error e

/-- R14: the text of a block, position 0 first. -/
def blockString (b : Block) : List Char := (blockSymbols b).map charOfSymbol

/-- R14: the text of a nibble, d1 first. -/
def nibbleString (n : Nibble) : List Char :=
  [n.d1, n.d2, n.d3, n.d4].map (fun b => charOfSymbol (.bit b))

/-- R80: the operation and operand text of an instruction. -/
def instrText : Instr → List Char × List Char
  | .enc d => (['E', 'N', 'C'], nibbleString (nibbleOperand d))
  | .syn val era => (['S', 'Y', 'N'], blockString (blockOperand val era))
  | .dec val era => (['D', 'E', 'C'], blockString (blockOperand val era))

end Sys2Proof.Machine
end

