-- ==== Sys2Proof/Machine/Platform.lean ====
section
/-! DEFINITION. Several instances of the core (spec/10_state.md R36, spec/60_exceptions.md R211): each is a machine of its
own with the hosts on its bus, and they share nothing. A framer may spread the blocks of one stream over them
(spec/44_host_framer.md R192). -/

namespace Sys2Proof.Machine

/-- The instances of a platform, by number. DESIGN CHOICE (notes/assumptions/12). -/
abbrev Platform := List State

/-- Every instance right after its reset (R36, R230). -/
def platformReset : Platform := List.replicate Config.hamInstances State.reset

/-- One step of instance `k`; where there is none, nothing moves. An instance whose step is refused or faults stops the
platform's step: DESIGN CHOICE (notes/assumptions/23). -/
def platformStep (k : Nat) (p : Platform) : Host.Outcome Platform Fault Refusal :=
  match p[k]? with
  | none => .next p
  | some s =>
    match step s with
    | .next t => .next (p.set k t)
    | .fault r => .fault r
    | .refused r => .refused r

/-- The steps of the listed instances, in the order listed: one interleaving of the instances' runs (R192). -/
def platformRun : List Nat → Platform → Host.Outcome Platform Fault Refusal
  | [], p => .next p
  | k :: rest, p =>
    match platformStep k p with
    | .next q => platformRun rest q
    | .fault r => .fault r
    | .refused r => .refused r

/-- One command and the read of its result on instance `k` (R180). -/
def runBlockOn (k : Nat) (w : Word) (p : Platform) : Option (Word × Platform) :=
  match p[k]? with
  | none => none
  | some s =>
    match runBlock w s with
    | none => none
    | some (r, t) => some (r, p.set k t)

/-- R192: which block of a stream is run next, and on which instance. -/
structure Job where
  block : Nat
  core : Nat
  deriving DecidableEq, Repr

/-- R192: the jobs of a plan in order; each block's result word with the block's number. A plan that names a block or an
instance that does not exist gives no result: DESIGN CHOICE (notes/assumptions/25). -/
def runJobs (words : List Word) : List Job → Platform → Option (List (Nat × Word) × Platform)
  | [], p => some ([], p)
  | j :: rest, p =>
    match words[j.block]? with
    | none => none
    | some w =>
      match runBlockOn j.core w p with
      | none => none
      | some (r, q) =>
        match runJobs words rest q with
        | none => none
        | some (results, u) => some ((j.block, r) :: results, u)

/-- R192: the results joined in block order, whatever order they came in. A block without a result adds no symbol, and of
several results of one block the first counts: DESIGN CHOICE (notes/assumptions/25). -/
def joinResults (kind : ResultKind) (n : Nat) (results : List (Nat × Word)) : List Symbol :=
  (List.range n).flatMap fun g =>
    match results.lookup g with
    | some r => resultSymbols kind r
    | none => []

/-- R192: a run of commands spread over the instances by a plan. -/
def runSpread (kind : ResultKind) (words : List Word) (plan : List Job) (p : Platform) :
    Option (List Symbol × Platform) :=
  match runJobs words plan p with
  | none => none
  | some (results, q) => some (joinResults kind words.length results, q)

/-- R181, R192: `encode_message` with the groups spread over the instances. -/
def encodeMessageOn (plan : List Job) (text : List Char) (p : Platform) : FramerResult Platform :=
  match parseAll bitOfChar text with
  | none => .rejected .badSymbol
  | some bits => streamResult (runSpread .codeword ((nibbleGroups bits).map encWord) plan p)

/-- R185, R192: `decode_stream` with the blocks spread over the instances. -/
def decodeStreamOn (plan : List Job) (text : List Char) (p : Platform) : FramerResult Platform :=
  if decodeLengthOk text.length then
    match parseAll symbolOfChar text with
    | none => .rejected .badSymbol
    | some symbols => streamResult (runSpread .partialNibble ((blockGroups symbols).map decWord) plan p)
  else .rejected .lengthMismatch

end Sys2Proof.Machine
end

