-- ==== Sys2Proof/Safety.lean ====
section
/-! DEFINITION. What a good state and a safe run are, in the terms the statements use: the layouts of RES and STAT
(spec/10_state.md R25, R27, R28), the invariant that every step keeps, and the host duties of
spec/70_reset_and_hazards.md R240. -/

namespace Sys2Proof.Machine

/-- R25: the bits of RES that read 0: [7:4], [15], [31:23]. -/
def resReserved : Word := 0xFF8080F0#32

/-- R27: the bits of STAT that read 0: [15:11], [31:21]. -/
def statReserved : Word := 0xFFE0F800#32

/-- R25: the fields of RES agree with the operation that wrote it. -/
def resContent (w : Word) : Bool :=
  if resOp w = 0 then w == 0
  else if resOp w = opEnc then resEra w == 0
  else if resOp w = opSyn then (resVal w).extractLsb' 3 4 == 0 && (resEra w).extractLsb' 3 4 == 0
  else if resOp w = opDec then (resVal w).extractLsb' 4 3 == 0 && (resEra w).extractLsb' 4 3 == 0
  else false

/-- R25: RES as the layout allows it: reserved bits 0, `VAL[i] = 0` wherever `ERA[i] = 1`, the content of its operation. -/
def resOk (w : Word) : Bool := (w &&& resReserved == 0) && (resVal w &&& resEra w == 0) && resContent w

/-- R27, R28, R151: the fields STAT holds beside each code. Codes 0x7 to 0xE are never written. -/
def statContent (w : Word) : Bool :=
  if statCode w = codeBits .none then w == 0
  else if statCode w = codeBits .done then
    (statOp w == opEnc || statOp w == opSyn) && statPos w == 0 && statMatches w == 0
  else if statCode w = codeBits .clean then statOp w == opDec && statPos w == 0 && statMatches w == 0
  else if statCode w = codeBits .corrected then statOp w == opDec && statPos w != 0 && statMatches w == 0
  else if statCode w = codeBits .resolved then statOp w == opDec && statPos w == 0 && statMatches w == 1
  else if statCode w = codeBits .noSolution then statOp w == opDec && statPos w == 0 && statMatches w == 0
  else if statCode w = codeBits .ambiguous then
    statOp w == opDec && statPos w == 0 &&
      (statMatches w == 2 || statMatches w == 4 || statMatches w == 8 || statMatches w == 16)
  else if statCode w = codeBits .illegal then statPos w == 0 && statMatches w == 0
  else false

/-- R27: STAT as the layout allows it. -/
def statOk (w : Word) : Bool := (w &&& statReserved == 0) && statContent w

/-- How RES and STAT agree: but for a rejected command, both are of the same operation (R21); a block that was decoded
without loss has no unresolved output (R142, R146). -/
def regsAgree (res stat : Word) : Bool :=
  (statCode stat == codeBits .illegal || resOp res == statOp stat) &&
  (!(statCode stat == codeBits .clean || statCode stat == codeBits .corrected || statCode stat == codeBits .resolved) ||
    resEra res == 0)

/-- RES and STAT after a reset or a command. -/
def regsOk (res stat : Word) : Bool := resOk res && statOk stat && regsAgree res stat

/-- A host's variables are listed by rising number, one entry each. -/
abbrev varsOk (vars : List (Var × Word)) : Prop := (vars.map Prod.fst).Pairwise (· < ·)

/-- The invariant of the machine: once reset, RES and STAT are well formed; a command is in flight only after a reset; the
hosts' variables are in their canonical form. -/
structure State.Inv (s : State) : Prop where
  regs : s.wasReset = true → regsOk s.res s.stat = true
  flight : s.inFlight ≠ none → s.wasReset = true
  vars : ∀ d ∈ s.drivers, varsOk d.vars

/-- In this step the host whose turn it is is `d` and executes `st`: no reset event arrives and no command is in flight
(R59). -/
structure State.Executes (s : State) (d : Driver) (st : Stmt) : Prop where
  quiet : s.resetNow = .quiet
  free : s.inFlight = none
  host : s.drivers[s.turn]? = some d
  stmt : d.statement = some st

/-- The state in which a host's statement takes effect: this step's reset input, the turn and the draw are used up. -/
def State.afterTurn (s : State) : State := s.dropReset.nextTurn

/-- R240: the access is one the core answers: 4 bytes at a multiple of 4, and a CMD write only after the reset (R234). That
the other accesses are answered before the reset is a DESIGN CHOICE (notes/assumptions/22). -/
def accessAllowed (s : State) (off : Offset) (width : Nat) (isWrite : Bool) : Bool :=
  match accessReg off width with
  | none => false
  | some .cmd => !isWrite || s.wasReset
  | some _ => true

/-- The program of the host has the label. -/
def hasLabel (d : Driver) (l : Label) : Bool := d.prog.any (fun st => st == .label l)

/-- R240, R81: the host keeps its duties with this statement. -/
def statementDuty (s : State) (d : Driver) : Stmt → Bool
  | .wr off width _ => accessAllowed s off width true
  | .rd off width _ => accessAllowed s off width false
  | .br cond l => evalExpr (s.draws + 1) d.vars cond == 0 || hasLabel d l
  | .jmp l => hasLabel d l
  | .set _ _ => true
  | .rst => true
  | .halt => true
  | .label _ => true
  | .result _ _ => true

/-- R240: the host whose turn it is, if one moves in this step, keeps its duties. -/
def hostDuty (s : State) : Bool :=
  match s.drivers[s.turn]? with
  | none => true
  | some d =>
    match d.statement with
    | none => true
    | some st => statementDuty s d st

/-- The step does not depend on a host, or the host keeps its duties. -/
def stepDuty (s : State) : Bool := s.resetNow != .quiet || s.inFlight.isSome || hostDuty s

end Sys2Proof.Machine
end

