-- ==== Sys2Proof/Certificates/Slice0/Obligations.lean ====
section
/-! DEFINITION. The statements for the provers. Each docstring names the rule of spec/ it formalises. The helpers under
`Claims` spell out the spec's formulas on the seven value bits, independently of the model's own functions. -/

namespace Sys2Proof.Claims

open Sys2Proof.Machine

/-- The field with one bit set, at position `i`. -/
def bitAt (i : Nat) : Mask := 1#7 <<< i

/-- R11: the number of 1 bits of a field. -/
def popcount (m : Mask) : Nat := ((List.range 7).filter (fun i => m.getLsbD i)).length

/-- R121, R122: the XOR of the bits check 1 covers, positions {0, 2, 4, 6}. -/
def check1 (v : Mask) : Bool := v.getLsbD 0 ^^ v.getLsbD 2 ^^ v.getLsbD 4 ^^ v.getLsbD 6

/-- R121, R122: the XOR of the bits check 2 covers, positions {1, 2, 5, 6}. -/
def check2 (v : Mask) : Bool := v.getLsbD 1 ^^ v.getLsbD 2 ^^ v.getLsbD 5 ^^ v.getLsbD 6

/-- R121, R122: the XOR of the bits check 4 covers, positions {3, 4, 5, 6}. -/
def check4 (v : Mask) : Bool := v.getLsbD 3 ^^ v.getLsbD 4 ^^ v.getLsbD 5 ^^ v.getLsbD 6

/-- R123: the syndrome number `4·s4 + 2·s2 + s1` of a block without erasures. -/
def number (v : Mask) : BitVec 3 :=
  BitVec.ofNat 3 (4 * (check4 v).toNat + 2 * (check2 v).toNat + (check1 v).toNat)

/-- R143, R149: the bits at positions 2, 4, 5, 6 as a field, d1 in bit 0. -/
def dataField (v : Mask) : Mask :=
  0#3 ++ BitVec.ofBool (v.getLsbD 6) ++ BitVec.ofBool (v.getLsbD 5) ++ BitVec.ofBool (v.getLsbD 4) ++
    BitVec.ofBool (v.getLsbD 2)

/-- R142: the block with the 1-based position `s` flipped; `s = 0` flips nothing. -/
def flipped (v : Mask) (s : BitVec 3) : Mask := if s = 0 then v else v ^^^ bitAt (s.toNat - 1)

/-- R105: the 16 codewords of the ENC table, as VAL fields, nibbles `0000` to `1111` read d1 first. -/
def codebook : List Mask :=
  [0x00#7, 0x4B#7, 0x2A#7, 0x61#7, 0x19#7, 0x52#7, 0x33#7, 0x78#7,
   0x07#7, 0x4C#7, 0x2D#7, 0x66#7, 0x1E#7, 0x55#7, 0x34#7, 0x7F#7]

/-- R145: the matching candidates of a canonical block: the codewords that agree with `v` outside the erased positions
`e`. -/
def matchesOf (v e : Mask) : List Mask := codebook.filter (fun w => w &&& ~~~e == v)

/-- R146 to R149: RES after the search found the candidates `ws`. -/
def searchRes (v e : Mask) : List Mask → Word
  | [w] => packRes 3 (dataField w) 0
  | _ => packRes 3 (dataField v) (dataField e)

/-- R146 to R148, R151: STAT after the search found the candidates `ws`. -/
def searchStat : List Mask → Word
  | [] => packStat 0 0 3 5
  | [_] => packStat 1 0 3 4
  | ws => packStat (BitVec.ofNat 5 ws.length) 0 3 6

/-- R152: the XOR combinations of the Hamming indices of the listed positions. -/
def combinations : List Nat → List (BitVec 3)
  | [] => [0]
  | i :: rest => combinations rest ++ (combinations rest).map (fun x => x ^^^ BitVec.ofNat 3 (i + 1))

/-- R152: the set `S_E` as a list without repeats. -/
def spanOf (e : Mask) : List (BitVec 3) :=
  ((List.range 8).map (BitVec.ofNat 3)).filter
    (fun x => (combinations ((List.range 7).filter (fun i => e.getLsbD i))).contains x)

/-- R149: RES spells the output symbols `q`. -/
def outputs (t : State) (q : PartialNibble) : Prop := t.res = packRes 3 (packVal q) (packEra q)

/-- R74: `Legal(w)` as the rule spells it. -/
def LegalWord (w : Word) : Prop :=
  (w.extractLsb' 0 4 = 1#4 ∨ w.extractLsb' 0 4 = 2#4 ∨ w.extractLsb' 0 4 = 3#4) ∧
  w &&& 0xFF8080F0#32 = 0#32 ∧
  (w.extractLsb' 0 4 = 1#4 → w.extractLsb' 12 3 = 0#3 ∧ w.extractLsb' 16 7 = 0#7) ∧
  (w.extractLsb' 0 4 = 2#4 ∨ w.extractLsb' 0 4 = 3#4 → w.extractLsb' 8 7 &&& w.extractLsb' 16 7 = 0#7)

/-- The text of a list of bits (R14). -/
def bitText (bits : List Bool) : List Char := bits.map (fun b => charOfSymbol (.bit b))

/-- The text of a list of symbols (R14). -/
def symbolText (symbols : List Symbol) : List Char := symbols.map charOfSymbol

/-- The hexadecimal digits by value, with capital letters. -/
def hexUpper : List Char := ['0', '1', '2', '3', '4', '5', '6', '7', '8', '9', 'A', 'B', 'C', 'D', 'E', 'F']

/-- The hexadecimal digits by value, with small letters. -/
def hexLower : List Char := ['0', '1', '2', '3', '4', '5', '6', '7', '8', '9', 'a', 'b', 'c', 'd', 'e', 'f']

/-- The character is the hexadecimal digit of `n`. -/
def spellsDigit (c : Char) (n : BitVec 4) : Prop := hexUpper[n.toNat]? = some c ∨ hexLower[n.toNat]? = some c

/-- R80: the eight hexadecimal digits of a word, the digit of bits [31:28] first. -/
def spellsWord (digits : List Char) (w : Word) : Prop :=
  digits.length = 8 ∧ ∀ k, k < 8 → ∃ c, digits[k]? = some c ∧ spellsDigit c (w.extractLsb' (28 - 4 * k) 4)

/-- R80: what may follow a command on its line: nothing, or a comment. -/
def isTail (tail : List Char) : Prop := tail = [] ∨ ∃ comment, tail = ';' :: comment

/-- The words of a line before its comment (notes/assumptions/14: words are separated by spaces or tabs). -/
def lineWords (line : List Char) : List (List Char) := splitWords [] (withoutComment line)

/-- R181: group `g` of a message as the field VAL[3:0]: message bits 4g to 4g + 3, a missing bit 0. -/
def groupNibble (bits : List Bool) (g : Nat) : BitVec 4 :=
  BitVec.ofBool (bits.getD (4 * g + 3) false) ++ BitVec.ofBool (bits.getD (4 * g + 2) false) ++
    BitVec.ofBool (bits.getD (4 * g + 1) false) ++ BitVec.ofBool (bits.getD (4 * g) false)

/-- The positions of block `g` of a stream that hold the symbol `x`, as a field. -/
def positionsOf (x : Symbol) (symbols : List Symbol) (g : Nat) : Mask :=
  (List.range 7).foldl (fun m i => if symbols[7 * g + i]? = some x then m ||| bitAt i else m) 0

/-- R190, R191: how many symbols a result word gives. -/
def symbolsPerWord : ResultKind → Nat
  | .codeword => 7
  | .partialNibble => 4

/-- R152: the seven three-position supports of the weight-3 codewords (R106). -/
def supports : List Mask :=
  [[0, 1, 2], [0, 3, 4], [0, 5, 6], [1, 3, 5], [1, 4, 6], [2, 3, 6], [2, 4, 5]].map
    (fun ps => ps.foldl (fun m i => m ||| bitAt i) 0)

end Sys2Proof.Claims

open Sys2Proof Sys2Proof.Machine Sys2Proof.Claims

/-! ## Reset (spec/10_state.md R29, spec/70_reset_and_hazards.md) -/

/-- R29: the reset values, the empty command port, and any value before the first reset. That such a read is the free value
`Config.powerUpRead` of the state's draw is the model's choice (DESIGN CHOICE, notes/assumptions/5 and 9); the statement holds
whatever that value is. -/
def Obligations.ResetValues : Prop :=
  State.reset.res = 0#32 ∧ resOp State.reset.res = 0 ∧ resVal State.reset.res = 0 ∧ resEra State.reset.res = 0 ∧
  State.reset.stat = 0#32 ∧ statCode State.reset.stat = codeBits .none ∧ statOp State.reset.stat = 0 ∧
  statPos State.reset.stat = 0 ∧ statMatches State.reset.stat = 0 ∧ State.reset.inFlight = none ∧
  (∀ s : State, s.applyReset.res = 0#32 ∧ s.applyReset.stat = 0#32 ∧ s.applyReset.inFlight = none) ∧
  (∀ s : State, s.wasReset = false →
    s.readReg .res = Config.powerUpRead s.draws ∧ s.readReg .stat = Config.powerUpRead s.draws)

/-- R230: the reset event sets both registers to 0: a host's `RST` does, and so does one that arrives by itself. It touches
nothing outside the core: `RST` moves its own host to its next statement, a reset that comes alone moves no host. -/
def Obligations.ResetEventClearsRegisters : Prop :=
  (∀ (s : State) (d : Driver), s.Executes d .rst →
    ∃ t, step s = .next t ∧ t.res = 0 ∧ t.stat = 0 ∧ statCode t.stat = codeBits .none ∧ t.inFlight = none ∧
      t.wasReset = true ∧ t.drivers = s.drivers.set s.turn { d with pc := d.pc + 1 }) ∧
  (∀ s : State, s.resetNow ≠ .quiet →
    ∃ t, step s = .next t ∧ t.res = 0 ∧ t.stat = 0 ∧ statCode t.stat = codeBits .none ∧ t.inFlight = none ∧
      t.wasReset = true ∧ (s.resetNow = .alone → t.drivers = s.drivers))

/-- R231: a command in flight when reset occurs is abandoned: it writes neither register. That the host of the abandoned
command stands past its write and no host moves is the model's choice (notes/assumptions/2: the host moves on when its word is
accepted; notes/assumptions/4, DEDUCED: it goes on after the reset). -/
def Obligations.ResetAbandonsCommandInFlight : Prop :=
  ∀ (s : State) (w : Word), s.inFlight = some w → s.resetNow ≠ .quiet →
    step s = .next { s with res := 0, stat := 0, inFlight := none, wasReset := true, resets := s.resets.tail }

/-- R232: a reset and a CMD write that arrive at the same time: reset first, the write abandoned as in R231. -/
def Obligations.ResetBeatsSimultaneousWrite : Prop :=
  ∀ (s : State) (d : Driver) (e : Expr), s.resetNow = .withWrite → s.inFlight = none →
    s.drivers[s.turn]? = some d → d.statement = some (.wrReg .cmd e) →
    ∃ t, step s = .next t ∧ t.res = 0 ∧ t.stat = 0 ∧ t.inFlight = none

/-- R233: before the first reset a read of RES or STAT stores any value, and a CMD write is not admitted. The value is the
model's free value and its draw (notes/assumptions/5 and 9); the statement holds whatever they are. That the refusal is of the
whole machine's step is the model's choice (notes/assumptions/23). -/
def Obligations.BeforeFirstReset : Prop :=
  (∀ (s : State) (d : Driver) (r : Reg) (x : Var), s.Executes d (.rdReg r x) → s.wasReset = false →
    r = .res ∨ r = .stat →
    step s = .next (s.afterTurn.setDriver s.turn (d.assign x (Config.powerUpRead s.afterTurn.draws)))) ∧
  (∀ (s : State) (d : Driver) (e : Expr), s.Executes d (.wrReg .cmd e) → s.wasReset = false →
    step s = .refused .commandBeforeReset)

/-! ## Bus transactions (spec/20_memory.md) -/

/-- R58, R59: a CMD write is accepted, and the step after it completes the command before any host moves again.
That a command takes two steps is the model's form (notes/assumptions/2). -/
def Obligations.CommandWriteIsAcceptedThenCompletes : Prop :=
  (∀ (s : State) (d : Driver) (e : Expr), s.Executes d (.wrReg .cmd e) → s.wasReset = true →
    step s = .next ((s.afterTurn.accept (evalExpr s.afterTurn.draws d.vars e)).setDriver s.turn d.advance)) ∧
  (∀ (s : State) (w : Word), s.resetNow = .quiet → s.inFlight = some w →
    ∃ r c, step s = .next { s with res := r, stat := c, inFlight := none, resets := s.resets.tail })

/-- R79: when the word in flight decodes to an instruction, a step with no reset event is `exec` of that instruction on
the state with the port free and this step's reset input used up; the instruction is well formed. -/
def Obligations.StepRunsDecodedInstruction : Prop :=
  ∀ (s : State) (w : Word) (i : Instr), s.resetNow = .quiet → s.inFlight = some w → decode w = .ok i →
    i.wellFormed = true ∧ step s = exec i { s with inFlight := none, resets := s.resets.tail }

/-- R54, R56: a read stores the register's value (0 for CMD and offset 0x0C) and changes no state of the core; after a
reset RES and STAT read as their contents, and a second read gives the same value. Before the first reset
each read of RES or STAT is a draw (R233; notes/assumptions/5), and that CMD and offset 0x0C read 0 then too is the model's
choice (DESIGN CHOICE, notes/assumptions/22). -/
def Obligations.ReadsHaveNoSideEffects : Prop :=
  ∀ (s : State) (d : Driver) (r : Reg) (x : Var), s.Executes d (.rdReg r x) →
    ∃ t v, step s = .next t ∧ t.res = s.res ∧ t.stat = s.stat ∧ t.inFlight = none ∧ t.wasReset = s.wasReset ∧
      t.drivers = s.drivers.set s.turn (d.assign x v) ∧
      (r = .cmd ∨ r = .rsv → v = 0 ∧ t.readReg r = 0) ∧
      (s.wasReset = true → r = .res → v = s.res ∧ t.readReg r = v) ∧
      (s.wasReset = true → r = .stat → v = s.stat ∧ t.readReg r = v)

/-- R55: a write to RES, STAT or offset 0x0C is accepted and ignored, whatever its data value. That it is so before the first
reset too is the model's choice (DESIGN CHOICE, notes/assumptions/22). -/
def Obligations.WritesToOtherRegistersAreIgnored : Prop :=
  ∀ (s : State) (d : Driver) (r : Reg) (e : Expr), s.Executes d (.wrReg r e) → r ≠ .cmd →
    ∃ t, step s = .next t ∧ t.res = s.res ∧ t.stat = s.stat ∧ t.inFlight = none ∧ t.wasReset = s.wasReset ∧
      t.drivers = s.drivers.set s.turn { d with pc := d.pc + 1 }

/-- R52: an access of another width or at an offset that is no multiple of 4 gets no step, and every 4-byte access at a
multiple of 4 gets one once the core is reset. That no other host of the machine goes on in this order of turns either is the
model's choice (DESIGN CHOICE, notes/assumptions/23). -/
def Obligations.OnlyAlignedWordAccessesAreDefined : Prop :=
  (∀ (s : State) (d : Driver) (off : Offset) (width : Nat), width ≠ 4 ∨ off.toNat % 4 ≠ 0 →
    (∀ e, s.Executes d (.wr off width e) → step s = .refused .undefinedAccess) ∧
    (∀ x, s.Executes d (.rd off width x) → step s = .refused .undefinedAccess)) ∧
  (∀ (s : State) (d : Driver) (off : Offset), off.toNat % 4 = 0 → s.wasReset = true →
    (∀ e, s.Executes d (.wr off 4 e) → ∃ t, step s = .next t) ∧
    (∀ x, s.Executes d (.rd off 4 x) → ∃ t, step s = .next t))

/-- R50, R51: the core answers exactly the 16 byte addresses from `HAM_BASE`, a multiple of 16, and the access at
`HAM_BASE + off` is the bus transaction at `off`. What lies outside the window is not the core's (notes/assumptions/19);
the statement is of one instance, and where the windows of others lie is open (notes/assumptions/20). -/
def Obligations.WindowLiesAtBase : Prop :=
  Config.hamBase % 16 = 0 ∧
  (∀ (s : State) (off : Offset) (width : Nat) (v : Word),
    s.memRead (Config.hamBase + off.toNat) width = some (s.busRead off width) ∧
    s.memWrite (Config.hamBase + off.toNat) width v = some (s.busWrite off width v)) ∧
  (∀ (s : State) (addr width : Nat) (v : Word), addr < Config.hamBase ∨ Config.hamBase + 16 ≤ addr →
    s.memRead addr width = none ∧ s.memWrite addr width v = none)

/-- R53: bits [8n+7 : 8n] of a register travel in the byte at `off + n`, for n = 0..3, and four bytes give the word back. -/
def Obligations.ByteLanesAreLittleEndian : Prop :=
  ∀ w : Word,
    (wordBytes w).length = 4 ∧
    (∀ n, n < 4 → (wordBytes w)[n]? = some (BitVec.ofNat 8 (w.toNat / 2 ^ (8 * n)))) ∧
    (∃ b0 b1 b2 b3, wordBytes w = [b0, b1, b2, b3] ∧ wordOfBytes b0 b1 b2 b3 = w)

/-- R235: no hazard: right after a CMD write completes, reads of RES and STAT give that command's results, from whatever
state the command is run. The two steps are the model's form of one held-back write (notes/assumptions/2). -/
def Obligations.ReadAfterCommandReturnsItsResult : Prop :=
  ∀ (s : State) (d : Driver) (e : Expr), s.Executes d (.wrReg .cmd e) → s.wasReset = true → s.resets = [] →
    ∃ t u, step s = .next t ∧ step t = .next u ∧ u.inFlight = none ∧
      (∀ i, decode (evalExpr s.afterTurn.draws d.vars e) = .ok i →
        ∀ a b, exec i a = .next b → u.readReg .res = b.res ∧ u.readReg .stat = b.stat) ∧
      (∀ r, decode (evalExpr s.afterTurn.draws d.vars e) = .error r →
        u.readReg .res = s.readReg .res ∧ statCode (u.readReg .stat) = codeBits .illegal)

/-- R21, R54, R55, R213: RES and STAT change only when a command completes or a reset event occurs: every other step keeps
them. -/
def Obligations.OnlyCommandsAndResetsChangeRegisters : Prop :=
  ∀ s t : State, step s = .next t → s.resetNow = .quiet → s.inFlight = none →
    (∀ d, s.drivers[s.turn]? = some d → d.statement ≠ some .rst) → t.res = s.res ∧ t.stat = s.stat

/-- R59, R64: transactions are taken one at a time: a step moves at most the host whose turn it is, and none while a
command is in flight. The order of the hosts is the model's input (notes/assumptions/11). -/
def Obligations.OneHostMovesAtATime : Prop :=
  ∀ s t : State, step s = .next t →
    (∀ k, k ≠ s.turn → t.drivers[k]? = s.drivers[k]?) ∧ (s.inFlight ≠ none → t.drivers = s.drivers)

/-! ## Illegal words (spec/60_exceptions.md) -/

/-- R202: an illegal word sets STAT to `{w[3:0], 0xF}` and changes nothing else. -/
def Obligations.IllegalWordSetsStatOnly : Prop :=
  ∀ (s : State) (w : Word), s.resetNow = .quiet → s.inFlight = some w → legal w = false →
    step s = .next { s with
      stat := ((opField w ++ 0xF#4 : BitVec 8).zeroExtend 32), inFlight := none, resets := s.resets.tail }

/-- R23: what a command writes is a function of the command word alone; an illegal command leaves RES unchanged. -/
def Obligations.ResultsDependOnCommandWordAlone : Prop :=
  ∀ (w : Word) (s s' : State), ∃ t t', executeWord w s = .next t ∧ executeWord w s' = .next t' ∧ t.stat = t'.stat ∧
    (legal w = true → t.res = t'.res) ∧ (legal w = false → t.res = s.res ∧ t'.res = s'.res)

/-- R25, R27, R202, R204: every command word is answered; STAT.OP is its raw OP field, STAT.CODE is ILLEGAL exactly for an
illegal word and never NONE, and a legal word leaves its OP in RES. -/
def Obligations.StatusReportsEveryCommand : Prop :=
  ∀ (w : Word) (s : State), ∃ t, executeWord w s = .next t ∧ statOp t.stat = opField w ∧
    (statCode t.stat = codeBits .illegal ↔ legal w = false) ∧ statCode t.stat ≠ codeBits .none ∧
    (legal w = true → resOp t.res = opField w)

/-! ## Encoding (spec/30_encoding.md) -/

/-- R74: the decoder gives an instruction exactly on the legal words, and `legal` is `Legal(w)`; canonical means that an
erased position carries value 0, and a block has one canonical spelling. -/
def Obligations.DecodesExactlyLegalWords : Prop :=
  (∀ w : Word, ((∃ i, decode w = .ok i) ↔ LegalWord w) ∧ (legal w = true ↔ LegalWord w)) ∧
  (∀ v e : Mask, canonical v e = true ↔ ∀ i : Nat, e.getLsbD i = true → v.getLsbD i = false) ∧
  (∀ v e v' e' : Mask, canonical v e = true → canonical v' e' = true → blockOperand v e = blockOperand v' e' →
    v = v' ∧ e = e')

/-- R76, decode of encode: no bit of an encoding is dropped, for every well-formed instruction. -/
def Obligations.DecodeOfEncode : Prop :=
  ∀ i : Instr, i.wellFormed = true → decode (encode i) = .ok i

/-- R76, encode of decode: a word that decodes is the word of its instruction, which is well formed. -/
def Obligations.EncodeOfDecode : Prop :=
  ∀ (w : Word) (i : Instr), decode w = .ok i → i.wellFormed = true ∧ encode i = w

/-- R76: each pair of operation and operand has exactly one legal word; there are 16 legal ENC words and 2187 for SYN and
for DEC; in a legal SYN or DEC word each position has one of three spellings. -/
def Obligations.LegalWordsPairWithOperands : Prop :=
  (∀ i : Instr, i.wellFormed = true → ∃! w : Word, legal w = true ∧ decode w = .ok i) ∧
  (∀ w : Word, legal w = true → ∃! i : Instr, decode w = .ok i) ∧
  Nat.card { w : Word // legal w = true ∧ opField w = opEnc } = 16 ∧
  Nat.card { w : Word // legal w = true ∧ opField w = opSyn } = 2187 ∧
  Nat.card { w : Word // legal w = true ∧ opField w = opDec } = 2187 ∧
  (∀ w : Word, legal w = true → opField w = opSyn ∨ opField w = opDec → ∀ i, i < 7 →
    ((valField w).getLsbD i = false ∧ (eraField w).getLsbD i = false ∧
        operandSymbol (valField w) (eraField w) i = .bit false) ∨
      ((valField w).getLsbD i = true ∧ (eraField w).getLsbD i = false ∧
        operandSymbol (valField w) (eraField w) i = .bit true) ∨
      ((valField w).getLsbD i = false ∧ (eraField w).getLsbD i = true ∧
        operandSymbol (valField w) (eraField w) i = .erased))

/-- R78, R82: words written out from the spec decode to what they stand for, and reserved ones are refused by name; the names are the
model's (notes/assumptions/17). -/
def Obligations.KnownWordsDecode : Prop :=
  decodeTableWord 32 0x00000D01 = some (.enc 0b1101#4) ∧
  decodeTableWord 32 0x00006603 = some (.dec 0b1100110#7 0#7) ∧
  decodeTableWord 32 0x00076003 = some (.dec 0b1100000#7 0b0000111#7) ∧
  decodeTableWord 32 0x00026402 = some (.syn 0b1100100#7 0b0000010#7) ∧
  decode 0x00000004#32 = .error .badOp ∧ decode 0x00800003#32 = .error .reservedBitSet ∧
  decode 0x00001001#32 = .error .encOperandTooWide ∧ decode 0x00010103#32 = .error .nonCanonicalBlock

/-- R78, R80: the line of every well-formed instruction gives the instruction's word, and the line `.cmd 0x<8 hex digits>`
the word of its digits, any 32-bit word; either with no comment or with any comment after it. A command line means `WR CMD`
of its word. That a digit may be of either case is the model's choice (PRESUMED, notes/assumptions/14). -/
def Obligations.AssemblerSpellsEveryInstruction : Prop :=
  (∀ (i : Instr) (tail : List Char), i.wellFormed = true → isTail tail →
    assembleLine ((instrText i).1 ++ ' ' :: ((instrText i).2 ++ tail)) = .ok (some (encode i))) ∧
  (∀ (w : Word) (digits tail : List Char), spellsWord digits w → isTail tail →
    assembleLine (['.', 'c', 'm', 'd', ' ', '0', 'x'] ++ (digits ++ tail)) = .ok (some w)) ∧
  (∀ w : Word, ∃ digits, spellsWord digits w) ∧
  (∀ (line : List Char) (w : Word), assembleLine line = .ok (some w) →
    assembleStatement line = .ok (some (.wrReg .cmd (.const w))))

/-- R80, of every line: an ENC operand that is not 4 characters over `0`, `1`, a SYN or DEC operand that is not 7 characters
over `0`, `1`, `?`, and any other mnemonic are refused, and a line whose first word is not `.cmd` never spells an illegal word.
The model's choices (notes/assumptions/14): how a line is split into words (PRESUMED), that a known mnemonic with another number
of operands and a `.cmd` operand that is not `0x` and 8 hexadecimal digits are refused as bad operands, that a line without a
word stands for nothing, and that another first word is refused also where it is a label in front of a command, as
spec/95_test_vectors.md P3 prints one, or begins a host statement of R81 (DESIGN CHOICE). -/
def Obligations.AssemblerRefusesWhatItCannotSpell : Prop :=
  ∀ line : List Char,
    (∀ text, lineWords line = [['E', 'N', 'C'], text] → text.length ≠ 4 ∨ (∃ c ∈ text, c ≠ '0' ∧ c ≠ '1') →
      assembleLine line = .error .badOperand) ∧
    (∀ mnemonic text, mnemonic = ['S', 'Y', 'N'] ∨ mnemonic = ['D', 'E', 'C'] → lineWords line = [mnemonic, text] →
      text.length ≠ 7 ∨ (∃ c ∈ text, c ≠ '0' ∧ c ≠ '1' ∧ c ≠ '?') → assembleLine line = .error .badOperand) ∧
    (∀ text, lineWords line = [['.', 'c', 'm', 'd'], text] →
      (∀ digits w, spellsWord digits w → text ≠ '0' :: 'x' :: digits) → assembleLine line = .error .badOperand) ∧
    (∀ mnemonic rest, lineWords line = mnemonic :: rest →
      mnemonic ∉ [['E', 'N', 'C'], ['S', 'Y', 'N'], ['D', 'E', 'C'], ['.', 'c', 'm', 'd']] →
      assembleLine line = .error .unknownMnemonic) ∧
    (∀ mnemonic rest, lineWords line = mnemonic :: rest →
      mnemonic ∈ [['E', 'N', 'C'], ['S', 'Y', 'N'], ['D', 'E', 'C'], ['.', 'c', 'm', 'd']] → rest.length ≠ 1 →
      assembleLine line = .error .badOperand) ∧
    (lineWords line = [] → assembleLine line = .ok none) ∧
    (∀ w, (lineWords line).head? ≠ some ['.', 'c', 'm', 'd'] → assembleLine line = .ok (some w) → legal w = true)

/-! ## Every instruction (spec/10_state.md R21, R35) -/

/-- R21, R35, R200: ENC, SYN and DEC complete from every state with every operand, and write RES and STAT and nothing else:
the command port, the hosts and the inputs are as before. -/
def Obligations.EveryInstructionCompletes : Prop :=
  (∀ (d : BitVec 4) (s : State), ∃ r c, exec (.enc d) s = .next { s with res := r, stat := c }) ∧
  (∀ (val era : Mask) (s : State), ∃ r c, exec (.syn val era) s = .next { s with res := r, stat := c }) ∧
  (∀ (val era : Mask) (s : State), ∃ r c, exec (.dec val era) s = .next { s with res := r, stat := c })

/-! ## ENC (spec/41_encode.md) -/

/-- R101, R102, R107: the parity equations, the layout and the systematic positions, on the bits of RES.VAL. -/
def Obligations.EncLaysOutParityAndData : Prop :=
  ∀ (d : BitVec 4) (s : State), ∃ t, exec (.enc d) s = .next t ∧
    (resVal t.res).getLsbD 0 = (d.getLsbD 0 ^^ d.getLsbD 1 ^^ d.getLsbD 3) ∧
    (resVal t.res).getLsbD 1 = (d.getLsbD 0 ^^ d.getLsbD 2 ^^ d.getLsbD 3) ∧
    (resVal t.res).getLsbD 2 = d.getLsbD 0 ∧
    (resVal t.res).getLsbD 3 = (d.getLsbD 1 ^^ d.getLsbD 2 ^^ d.getLsbD 3) ∧
    (resVal t.res).getLsbD 4 = d.getLsbD 1 ∧
    (resVal t.res).getLsbD 5 = d.getLsbD 2 ∧
    (resVal t.res).getLsbD 6 = d.getLsbD 3 ∧ resEra t.res = 0

/-- R103: RES after ENC, and STAT = 0x0000_0011 (R100). -/
def Obligations.EncWritesResAndStat : Prop :=
  ∀ (d : BitVec 4) (s : State), exec (.enc d) s =
    .next { s with res := 0#9 ++ 0#7 ++ 0#1 ++ encBits d ++ 0#4 ++ 1#4, stat := 0x00000011#32 }

/-- R104: a data bit at Hamming index h is covered by exactly the parity bits whose weight is set in h: flipping it flips
the parity at index k exactly when h has the bit of weight k. -/
def Obligations.DataBitsAreCoveredByTheirIndex : Prop :=
  ∀ (d : BitVec 4) (j k : Nat) (h : Nat), (j, h) ∈ [(0, 3), (1, 5), (2, 6), (3, 7)] → k < 3 →
    ((encBits (d ^^^ (1#4 <<< j)) ^^^ encBits d).getLsbD (2 ^ k - 1) = h.testBit k) ∧
    ((encBits (d ^^^ (1#4 <<< j)) ^^^ encBits d) &&& 0b1110100#7 = bitAt (h - 1))

/-- R106: ENC is linear and injective; the weights of its codewords; minimum distance 3; the supports of weight 3; every
7-bit word is within distance 1 of exactly one codeword. -/
def Obligations.EncIsPerfectCodeOfDistanceThree : Prop :=
  (∀ a b : BitVec 4, encBits (a ^^^ b) = encBits a ^^^ encBits b) ∧
  (∀ a b : BitVec 4, encBits a = encBits b → a = b) ∧
  (∀ n, ((List.range 16).filter (fun a => popcount (encBits (BitVec.ofNat 4 a)) == n)).length =
    if n = 0 then 1 else if n = 3 then 7 else if n = 4 then 7 else if n = 7 then 1 else 0) ∧
  (∀ a b : BitVec 4, a ≠ b → 3 ≤ popcount (encBits a ^^^ encBits b)) ∧
  (∃ a b : BitVec 4, popcount (encBits a ^^^ encBits b) = 3) ∧
  (∀ w : Mask, (popcount w = 3 ∧ ∃ a, encBits a = w) ↔ w ∈ supports) ∧
  (∀ w : Mask, ∃! a : BitVec 4, popcount (encBits a ^^^ w) ≤ 1)

/-! ## SYN (spec/42_syndrome.md) -/

/-- R121, R122, R127: each component is the XOR of the bits its check covers, or indeterminate where one of them is
erased, its VAL bit then 0; every other bit of VAL and ERA is 0; STAT is 0x0000_0021 (R120). For a block without erasures
RES.VAL is the syndrome number (R123). -/
def Obligations.SynReportsSyndrome : Prop :=
  (∀ (v e : Mask) (s : State), exec (.syn v e) s = .next { s with
    res := packRes 2
      (0#4 ++ BitVec.ofBool (e &&& 0b1111000#7 == 0 && check4 v) ++ BitVec.ofBool (e &&& 0b1100110#7 == 0 && check2 v) ++
        BitVec.ofBool (e &&& 0b1010101#7 == 0 && check1 v))
      (0#4 ++ BitVec.ofBool (e &&& 0b1111000#7 != 0) ++ BitVec.ofBool (e &&& 0b1100110#7 != 0) ++
        BitVec.ofBool (e &&& 0b1010101#7 != 0))
    stat := 0x00000021#32 }) ∧
  (∀ (v : Mask) (s : State), ∃ t, exec (.syn v 0) s = .next t ∧ resEra t.res = 0 ∧
    (resVal t.res).toNat = 4 * (check4 v).toNat + 2 * (check2 v).toNat + (check1 v).toNat)

/-- R125: a syndrome is fully determined exactly when the block has no erasure, and the indeterminate components are the
checks whose cover set meets the erased positions. -/
def Obligations.SyndromeIsDeterminedWithoutErasures : Prop :=
  ∀ (v e : Mask) (s : State), ∃ t, exec (.syn v e) s = .next t ∧
    (resEra t.res = 0 ↔ e = 0) ∧
    (∀ k : Nat, k < 3 → ((resEra t.res).getLsbD k = true ↔
      ∃ i, i < 7 ∧ e.getLsbD i = true ∧ (i + 1).testBit k = true))

/-- R126: a block without erasures has syndrome (0,0,0) exactly when it is one of the 16 outputs of ENC. -/
def Obligations.ZeroSyndromeExactlyCodewords : Prop :=
  ∀ (v : Mask) (s : State), ∃ t, exec (.syn v 0) s = .next t ∧
    (resVal t.res = 0 ↔ ∃ (d : BitVec 4) (u : State), exec (.enc d) s = .next u ∧ resVal u.res = v)

/-- R128: the syndrome is linear; a flip of position i of a codeword gives number i + 1; two flips give the XOR of their
indices, which is nonzero and names a third position, the one DEC then flips. -/
def Obligations.SyndromeIsLinearAndNamesFlips : Prop :=
  (∀ x y : Mask, synVal (syndrome (blockOperand (x ^^^ y) 0)) =
    synVal (syndrome (blockOperand x 0)) ^^^ synVal (syndrome (blockOperand y 0))) ∧
  (∀ (d : BitVec 4) (i : Nat) (s : State), i < 7 → ∃ t, exec (.syn (encBits d ^^^ bitAt i) 0) s = .next t ∧
    resVal t.res = BitVec.ofNat 7 (i + 1)) ∧
  (∀ (d : BitVec 4) (i j : Nat) (s : State), i < 7 → j < 7 → i ≠ j →
    ∃ t, exec (.syn (encBits d ^^^ bitAt i ^^^ bitAt j) 0) s = .next t ∧
      (resVal t.res).toNat = (i + 1) ^^^ (j + 1) ∧ (resVal t.res).toNat ≠ 0 ∧
      (resVal t.res).toNat ≠ i + 1 ∧ (resVal t.res).toNat ≠ j + 1 ∧
      ∃ u, exec (.dec (encBits d ^^^ bitAt i ^^^ bitAt j) 0) s = .next u ∧
        (statPos u.stat).toNat = (resVal t.res).toNat)

/-! ## DEC (spec/43_decode.md) -/

/-- R142, R143: without erasures DEC flips the position the syndrome number names and gives the data bits; a flip at a
parity position changes no data bit, a flip at index 3, 5, 6 or 7 changes d1, d2, d3 or d4. -/
def Obligations.DecCorrectsSingleFlip : Prop :=
  (∀ (v : Mask) (s : State), exec (.dec v 0) s = .next { s with
    res := packRes 3 (dataField (flipped v (number v))) 0
    stat := packStat 0 (number v) 3 (if number v = 0 then 2 else 3) }) ∧
  (∀ (v : Mask) (n : BitVec 3), dataField (flipped v n) =
    dataField v ^^^ (if n = 3 then bitAt 0 else if n = 5 then bitAt 1 else if n = 6 then bitAt 2
      else if n = 7 then bitAt 3 else 0))

/-- R144: the candidates of the search are all `2^|E|` assignments of bits to the erased positions, each once, at most 128
of them; the other positions keep their received bits. Where there is an erasure, DEC's outcome is that of the search over
exactly these. -/
def Obligations.CandidatesAreAllFillings : Prop :=
  ∀ b : Block, (candidates b).length = 2 ^ ((blockSymbols b).filter isErased).length ∧ (candidates b).length ≤ 128 ∧
    (candidates b).Nodup ∧
    (∀ w, w ∈ candidates b ↔ hasErasure w = false ∧
      ∀ i : Nat, (blockSymbols b)[i]? = (blockSymbols w)[i]? ∨ (blockSymbols b)[i]? = some .erased) ∧
    (hasErasure b = true →
      decodeSymbols b = searchOutcome b ((candidates b).filter (fun w => isZeroSyndrome (syndrome w))))

/-- R145 to R148: with erasures DEC outputs the one codeword that agrees with the received bits, where there is exactly
one, and the received data symbols otherwise, with the code and the number of matches; a block without erasures has
syndrome (0,0,0) exactly when it is a codeword. -/
def Obligations.DecFindsMatchingCodewords : Prop :=
  (∀ (v e : Mask) (s : State), canonical v e = true → e ≠ 0 → exec (.dec v e) s = .next { s with
    res := searchRes v e (matchesOf v e), stat := searchStat (matchesOf v e) }) ∧
  (∀ w : Mask, (number w = 0 ↔ w ∈ codebook) ∧ (w ∈ codebook ↔ ∃ d : BitVec 4, encBits d = w))

/-- R151: the status table, row by row, in the terms of the pseudocode: whether `E` is empty, the syndrome number and
the matching candidates. STAT = (m << 16) | (pos << 8) | 0x30 | CODE, and the output column. -/
def Obligations.DecStatusTable : Prop :=
  ∀ (v e : Mask) (s : State), ∃ t, exec (.dec v e) s = .next t ∧
    (hasErasure (blockOperand v e) = false → syndromeNumber (syndrome (blockOperand v e)) = 0 →
      t.stat = 0x32#32 ∧ outputs t (dataSymbols (blockOperand v e))) ∧
    (hasErasure (blockOperand v e) = false → syndromeNumber (syndrome (blockOperand v e)) ≠ 0 →
      t.stat.toNat = (syndromeNumber (syndrome (blockOperand v e))).toNat * 256 + 0x33 ∧
      outputs t (dataSymbols (flipIndex (blockOperand v e) (syndromeNumber (syndrome (blockOperand v e))).toNat))) ∧
    (hasErasure (blockOperand v e) = true → ∀ w, matching (blockOperand v e) = [w] →
      t.stat = 0x10034#32 ∧ outputs t (dataSymbols w) ∧ resEra t.res = 0) ∧
    (hasErasure (blockOperand v e) = true → matching (blockOperand v e) = [] →
      t.stat = 0x35#32 ∧ outputs t (dataSymbols (blockOperand v e))) ∧
    (hasErasure (blockOperand v e) = true → 2 ≤ (matching (blockOperand v e)).length →
      (matching (blockOperand v e)).length ≤ 16 ∧
      t.stat.toNat = (matching (blockOperand v e)).length * 65536 + 0x36 ∧
      outputs t (dataSymbols (blockOperand v e)))

/-- R149: RES after DEC: each of the four output symbols has one of three spellings, the other bits are 0. -/
def Obligations.DecResultIsCanonical : Prop :=
  ∀ (v e : Mask) (s : State), ∃ t, exec (.dec v e) s = .next t ∧ resOp t.res = 3 ∧
    t.res &&& 0xFFF0F0F0#32 = 0 ∧ resVal t.res &&& resEra t.res = 0 ∧
    nibbleSymbols t.res =
      [(decodeSymbols (blockOperand v e)).data.d1, (decodeSymbols (blockOperand v e)).data.d2,
       (decodeSymbols (blockOperand v e)).data.d3, (decodeSymbols (blockOperand v e)).data.d4]

/-- R152: the number of matching candidates is `2^(|E| − ρ)` when the syndrome number of the received bits lies in the
span of the erased indices, of dimension ρ, and 0 otherwise. -/
def Obligations.MatchCountFormula : Prop :=
  ∀ (v e : Mask) (s : State), canonical v e = true → e ≠ 0 → ∃ t rho, exec (.dec v e) s = .next t ∧
    (spanOf e).length = 2 ^ rho ∧
    (statMatches t.stat).toNat = if number v ∈ spanOf e then 2 ^ (popcount e - rho) else 0

/-- R152: which outcomes each number of erasures can have: at most two erasures are never ambiguous; three are
ambiguous only on one of the seven supports, and RESOLVED otherwise; four or more always are. -/
def Obligations.OutcomesByErasureCount : Prop :=
  ∀ (v e : Mask) (s : State), canonical v e = true → ∃ t, exec (.dec v e) s = .next t ∧
    (popcount e = 0 → statCode t.stat = 2 ∨ statCode t.stat = 3) ∧
    (popcount e = 1 ∨ popcount e = 2 → statCode t.stat = 4 ∨ statCode t.stat = 5) ∧
    (popcount e = 3 → e ∉ supports → statCode t.stat = 4) ∧
    (popcount e = 3 → e ∈ supports → (statCode t.stat = 6 ∧ statMatches t.stat = 2) ∨ statCode t.stat = 5) ∧
    (4 ≤ popcount e → statCode t.stat = 6 ∧ (statMatches t.stat).toNat = 2 ^ (popcount e - 3))

/-- R153: the order in which the candidates are enumerated changes no result. -/
def Obligations.EnumerationOrderIsIrrelevant : Prop :=
  ∀ (b : Block) (order : List Block), order.Perm (candidates b) →
    searchOutcome b (order.filter (fun w => isZeroSyndrome (syndrome w))) = searchOutcome b (matching b)

/-- R150: the erasure path corrects nothing: a codeword with erasures and a flipped bit outside them is RESOLVED,
NOSOLUTION or AMBIGUOUS, and where it is RESOLVED the nibble is wrong. -/
def Obligations.ErasurePathNeverCorrects : Prop :=
  (∀ (d : BitVec 4) (e : Mask) (i : Nat) (s : State), e ≠ 0 → i < 7 → e.getLsbD i = false →
    ∃ t, exec (.dec ((encBits d ^^^ bitAt i) &&& ~~~e) e) s = .next t ∧
      (statCode t.stat = 4 ∨ statCode t.stat = 5 ∨ statCode t.stat = 6) ∧
      (statCode t.stat = 4 → resVal t.res ≠ 0#3 ++ d)) ∧
  (∀ s : State, exec (.dec 0b1100000#7 0b0000011#7) s = .next { s with res := 0x00000C03#32, stat := 0x00010034#32 })

/-- R154: two flipped bits: DEC flips a third position and reports CORRECTED with a wrong nibble. -/
def Obligations.TwoFlipsAreMiscorrected : Prop :=
  ∀ (d : BitVec 4) (i j : Nat) (s : State), i < 7 → j < 7 → i ≠ j →
    ∃ t, exec (.dec (encBits d ^^^ bitAt i ^^^ bitAt j) 0) s = .next t ∧ statCode t.stat = 3 ∧
      (statPos t.stat).toNat = (i + 1) ^^^ (j + 1) ∧ statPos t.stat ≠ 0 ∧ resEra t.res = 0 ∧
      resVal t.res ≠ 0#3 ++ d

/-- R155, R156: a NOSOLUTION block whose erasures are all at parity positions gives its received data bits and no `?`;
the examples `?110111` (R155) and `???001?`, where an erased position stays `?` although both candidates agree on it
(R156). -/
def Obligations.UnresolvedBlocksPassThrough : Prop :=
  (∀ (v e : Mask) (s : State), canonical v e = true → e &&& 0b1110100#7 = 0 →
    ∃ t, exec (.dec v e) s = .next t ∧ (statCode t.stat = 5 → t.res = packRes 3 (dataField v) 0)) ∧
  (∀ s : State,
    exec (.dec 0b1110110#7 0b0000001#7) s = .next { s with res := 0x00000F03#32, stat := 0x00000035#32 } ∧
    exec (.dec 0b0100000#7 0b1000111#7) s = .next { s with res := 0x00090403#32, stat := 0x00020036#32 } ∧
    (matching (blockOperand 0b0100000#7 0b1000111#7)).length = 2 ∧
    ∀ w ∈ matching (blockOperand 0b0100000#7 0b1000111#7), w.d4 = .bit true)

/-- R157: decoding what ENC wrote: unchanged, with any one bit flipped, with any one or any two positions erased, gives
the nibble back, with the code and fields the rule names. -/
def Obligations.DecodingUndoesEncoding : Prop :=
  ∀ (d : BitVec 4) (s : State), ∃ t, exec (.enc d) s = .next t ∧
    exec (.dec (resVal t.res) 0) t = .next { t with res := packRes 3 (0#3 ++ d) 0, stat := packStat 0 0 3 2 } ∧
    (∀ i, i < 7 → exec (.dec (resVal t.res ^^^ bitAt i) 0) t =
      .next { t with res := packRes 3 (0#3 ++ d) 0, stat := packStat 0 (BitVec.ofNat 3 (i + 1)) 3 3 }) ∧
    (∀ i j, i < 7 → j < 7 → exec (.dec (resVal t.res &&& ~~~(bitAt i ||| bitAt j)) (bitAt i ||| bitAt j)) t =
      .next { t with res := packRes 3 (0#3 ++ d) 0, stat := packStat 1 0 3 4 })

/-! ## The machine as a whole -/

/-- R25, R27, R28: every step keeps RES and STAT well formed (reserved bits 0, canonical results, no code from 0x7 to 0xE,
the fields that belong to each code), a command in flight only after a reset, and the hosts' variables canonical. The
hosts and their variables are the model's form of the host (notes/assumptions/1). -/
def Obligations.StepKeepsInvariant : Prop :=
  ∀ s t : State, s.Inv → step s = .next t → t.Inv

/-- R29, R238: the launch state of every host program meets the invariant, the state after reset among them. -/
def Obligations.LaunchMeetsInvariant : Prop :=
  State.reset.Inv ∧ (∀ prog, (State.launch prog).Inv) ∧ (∀ prog, (State.powerUp prog).Inv)

/-- R240: a step answers a next state exactly when the host whose turn it is, if one moves, keeps its duties.
Of this the spec does not state, and the model chooses: that a jump to a label the program lacks has no step
(notes/assumptions/8); that a turn with no host, or with one that has ended, answers (notes/assumptions/11 and 13); that a step
with a reset event answers whatever access a host is at, because the statement waits (notes/assumptions/4, DEDUCED); that an
ignored access answers before the first reset too (notes/assumptions/22); that a host without a step stops the machine's
(notes/assumptions/23). -/
def Obligations.StepAnswersExactlyUnderDuty : Prop :=
  ∀ s : State, (∃ t, step s = .next t) ↔ stepDuty s = true

/-- R239, R213: `HALT` ends a host: from then on it executes nothing, and RES and STAT keep their values.
That the machine goes on stepping after a host's end is the model's form (notes/assumptions/13). -/
def Obligations.HaltedHostDoesNothing : Prop :=
  (∀ (s : State) (d : Driver), s.Executes d .halt →
    step s = .next (s.afterTurn.setDriver s.turn { d with halted := true })) ∧
  (∀ (s : State) (d : Driver), s.resetNow = .quiet → s.inFlight = none → s.drivers[s.turn]? = some d →
    d.halted = true → step s = .next s.afterTurn)

/-! ## Host statements (spec/30_encoding.md R81) -/

/-- R81: host arithmetic is unsigned and modulo 2^32, operator by operator; `&`, `|`, `^` and `~` work bit by bit. That
comparisons and logical operators give 1 or 0, and that a value other than 0 is true, is as in C (PRESUMED,
notes/assumptions/18). -/
def Obligations.HostArithmeticIsUnsigned : Prop :=
  (∀ a b : Word,
    (evalBin .add a b).toNat = (a.toNat + b.toNat) % 2 ^ 32 ∧
    (evalBin .sub a b).toNat = (2 ^ 32 - b.toNat + a.toNat) % 2 ^ 32 ∧
    (b.toNat < 32 → (evalBin .shl a b).toNat = a.toNat * 2 ^ b.toNat % 2 ^ 32 ∧
      (evalBin .shr a b).toNat = a.toNat / 2 ^ b.toNat) ∧
    (∀ i, (evalBin .and a b).getLsbD i = (a.getLsbD i && b.getLsbD i)) ∧
    (∀ i, (evalBin .or a b).getLsbD i = (a.getLsbD i || b.getLsbD i)) ∧
    (∀ i, (evalBin .xor a b).getLsbD i = (a.getLsbD i ^^ b.getLsbD i)) ∧
    (evalBin .lt a b = if a.toNat < b.toNat then 1 else 0) ∧ (evalBin .le a b = if a.toNat ≤ b.toNat then 1 else 0) ∧
    (evalBin .gt a b = if b.toNat < a.toNat then 1 else 0) ∧ (evalBin .ge a b = if b.toNat ≤ a.toNat then 1 else 0) ∧
    (evalBin .eq a b = if a = b then 1 else 0) ∧ (evalBin .ne a b = if a = b then 0 else 1) ∧
    (evalBin .land a b = if a = 0 ∨ b = 0 then 0 else 1) ∧ (evalBin .lor a b = if a = 0 ∧ b = 0 then 0 else 1)) ∧
  (∀ (n : Nat) (vars : List (Var × Word)) (x y : Expr) (op : BinOp) (w : Word) (v : Var),
    (∀ i, i < 32 → (evalExpr n vars (.not x)).getLsbD i = !(evalExpr n vars x).getLsbD i) ∧
    evalExpr n vars (.bin op x y) = evalBin op (evalExpr n vars x) (evalExpr n vars y) ∧
    evalExpr n vars (.const w) = w ∧ (lookupVar v vars = some w → evalExpr n vars (.var v) = w))

/-- R81: `SET` stores the value of its expression, reads of the variable give it back, other variables, the output and the
core keep theirs. A label has no effect. The result line of an expansion (R190, R191; notes/assumptions/15) appends the
symbols of the words read: four for each result of DEC, seven for each of ENC. -/
def Obligations.HostStatementsKeepTheCore : Prop :=
  (∀ (s : State) (d : Driver) (x : Var) (e : Expr), s.Executes d (.set x e) →
    ∃ d', step s = .next (s.afterTurn.setDriver s.turn d') ∧ d'.prog = d.prog ∧ d'.pc = d.pc + 1 ∧
      d'.output = d.output ∧ d'.halted = d.halted ∧
      lookupVar x d'.vars = some (evalExpr s.afterTurn.draws d.vars e) ∧
      (∀ y, y ≠ x → lookupVar y d'.vars = lookupVar y d.vars)) ∧
  (∀ (s : State) (d : Driver) (l : Label), s.Executes d (.label l) →
    step s = .next (s.afterTurn.setDriver s.turn { d with pc := d.pc + 1 })) ∧
  (∀ (s : State) (d : Driver) (kind : ResultKind) (xs : List Var), s.Executes d (.result kind xs) →
    ∃ out, step s = .next (s.afterTurn.setDriver s.turn { d with output := d.output ++ out, pc := d.pc + 1 }) ∧
      out.length = symbolsPerWord kind * xs.length ∧
      (∀ (k : Nat) (x : Var) (w : Word), xs[k]? = some x → lookupVar x d.vars = some w → ∀ j, j < 4 →
        kind = .partialNibble → out[4 * k + j]? = some (operandSymbol (resVal w) (resEra w) j)) ∧
      (∀ (k : Nat) (x : Var) (w : Word), xs[k]? = some x → lookupVar x d.vars = some w → ∀ j, j < 7 →
        kind = .codeword → out[7 * k + j]? = some (.bit ((resVal w).getLsbD j))))

/-- R81: `JMP` goes to the first statement that is its label, `BR` does so exactly when its condition is not 0, and goes
on to the next statement otherwise. That the first of repeated labels is the one meant is the model's choice (DESIGN CHOICE,
notes/assumptions/8); that a condition holds when its value is not 0 is as in C (PRESUMED, notes/assumptions/18). -/
def Obligations.BranchesGoToTheirLabel : Prop :=
  ∀ (s : State) (d : Driver) (l : Label) (n : Nat), d.prog[n]? = some (.label l) →
    (∀ m, m < n → d.prog[m]? ≠ some (.label l)) →
    (s.Executes d (.jmp l) → step s = .next (s.afterTurn.setDriver s.turn { d with pc := n })) ∧
    (∀ c, s.Executes d (.br c l) → evalExpr s.afterTurn.draws d.vars c ≠ 0 →
      step s = .next (s.afterTurn.setDriver s.turn { d with pc := n })) ∧
    (∀ c, s.Executes d (.br c l) → evalExpr s.afterTurn.draws d.vars c = 0 →
      step s = .next (s.afterTurn.setDriver s.turn { d with pc := d.pc + 1 }))

/-! ## The host stream framer (spec/44_host_framer.md) -/

/-- R181, R182: encoding a message of any length gives `7 * ceil(n / 4)` symbols, all of them bits: symbols 7g to 7g + 6 are
the codeword of group g, message bits 4g to 4g + 3 with a missing bit 0. The empty message gives the empty stream and issues no
command. Of a call that nothing interrupts (notes/assumptions/24). -/
def Obligations.EncodedStreamLength : Prop :=
  (∀ (bits : List Bool) (s : State), s.wasReset = true →
    ∃ out t, encodeMessage (bitText bits) s = .output out t ∧ out.length = 7 * ((bits.length + 3) / 4) ∧
      (∀ x ∈ out, x ≠ Symbol.erased) ∧
      ∀ g i, g < (bits.length + 3) / 4 → i < 7 →
        out[7 * g + i]? = some (.bit ((encBits (groupNibble bits g)).getLsbD i))) ∧
  (∀ s : State, encodeMessage [] s = .output [] s)

/-- R185: decoding a stream of a positive multiple of 7 symbols gives `4 * (n / 7)` symbols: symbols 4g to 4g + 3 are what DEC
of block g, stream symbols 7g to 7g + 6, writes to RES, an unresolved one `?`. Of a call that nothing interrupts
(notes/assumptions/24). -/
def Obligations.DecodedStreamLength : Prop :=
  ∀ (symbols : List Symbol) (s : State), s.wasReset = true → symbols ≠ [] → symbols.length % 7 = 0 →
    ∃ out t, decodeStream (symbolText symbols) s = .output out t ∧ out.length = 4 * (symbols.length / 7) ∧
      ∀ g, g < symbols.length / 7 →
        ∃ c, exec (.dec (positionsOf (.bit true) symbols g) (positionsOf .erased symbols g)) s = .next c ∧
          ∀ j, j < 4 → out[4 * g + j]? =
            some (if (resEra c.res).getLsbD j then .erased else .bit ((resVal c.res).getLsbD j))

/-- R183, R184, R188: what the framer rejects: a character outside the alphabet, and, before that is looked at, a decode length
that is 0 or no multiple of 7. A rejected request leaves no state behind: no command reaches the core. R190, R191: ENCMSG and
DECSTR are refused at assembly time for the same reasons, and expand, group by group and block by block, into the command and
the reads of its results. The variables that are read into, the RD STAT of each block and the statement for the result line are
the model's form of the expansions (DESIGN CHOICE, notes/assumptions/15). -/
def Obligations.FramerRejections : Prop :=
  (∀ (text : List Char) (s : State), (∃ c ∈ text, c ≠ '0' ∧ c ≠ '1') → encodeMessage text s = .rejected .badSymbol) ∧
  (∀ (text : List Char) (s : State), text.length = 0 ∨ text.length % 7 ≠ 0 →
    decodeStream text s = .rejected .lengthMismatch) ∧
  (∀ (text : List Char) (s : State), text.length ≠ 0 → text.length % 7 = 0 →
    (∃ c ∈ text, c ≠ '0' ∧ c ≠ '1' ∧ c ≠ '?') → decodeStream text s = .rejected .badSymbol) ∧
  (∀ (length : Nat) (text : List Char) (s : State), text.length ≠ 7 * ((length + 3) / 4) →
    decodeMessage length text s = .rejected .lengthMismatch) ∧
  (∀ text : List Char, (∃ c ∈ text, c ≠ '0' ∧ c ≠ '1') → encMsg text = .error .badSymbol) ∧
  (∀ text : List Char, text.length = 0 ∨ text.length % 7 ≠ 0 → decStr text = .error .lengthMismatch) ∧
  (∀ text : List Char, text.length ≠ 0 → text.length % 7 = 0 → (∃ c ∈ text, c ≠ '0' ∧ c ≠ '1' ∧ c ≠ '?') →
    decStr text = .error .badSymbol) ∧
  (∀ bits : List Bool, encMsg (bitText bits) = .ok
    ((List.range ((bits.length + 3) / 4)).flatMap (fun g =>
      [.wrReg .cmd (.const (encode (.enc (groupNibble bits g)))), .rdReg .res g]) ++
      [.result .codeword (List.range ((bits.length + 3) / 4))])) ∧
  (∀ symbols : List Symbol, symbols ≠ [] → symbols.length % 7 = 0 → decStr (symbolText symbols) = .ok
    ((List.range (symbols.length / 7)).flatMap (fun g =>
      [.wrReg .cmd (.const (encode (.dec (positionsOf (.bit true) symbols g) (positionsOf .erased symbols g)))),
        .rdReg .res (2 * g), .rdReg .stat (2 * g + 1)]) ++
      [.result .partialNibble ((List.range (symbols.length / 7)).map (fun g => 2 * g))]))

/-- R186: failure is local: the output of two streams one after the other is the outputs of each, whatever their blocks
decode to; the second's is what it gives from any reset core, so nothing of the first's blocks is in it. Of calls that nothing
interrupts (notes/assumptions/24). -/
def Obligations.BlockFailureIsLocal : Prop :=
  ∀ (a b : List Symbol) (s : State), s.wasReset = true → a ≠ [] → b ≠ [] → a.length % 7 = 0 → b.length % 7 = 0 →
    ∃ outA outB t u, decodeStream (symbolText a) s = .output outA t ∧ decodeStream (symbolText b) t = .output outB u ∧
      decodeStream (symbolText (a ++ b)) s = .output (outA ++ outB) u ∧
      ∀ s' : State, s'.wasReset = true → ∃ u', decodeStream (symbolText b) s' = .output outB u'

/-- R181, R185, R187, R193: a message that is encoded, decoded and cut to its length comes back, whatever its length. Of calls
that nothing interrupts (notes/assumptions/24). -/
def Obligations.FramerRoundTrip : Prop :=
  ∀ (bits : List Bool) (s : State), s.wasReset = true → bits ≠ [] →
    ∃ stream t u, encodeMessage (bitText bits) s = .output stream t ∧
      decodeMessage bits.length (symbolText stream) t = .output (bits.map Symbol.bit) u

/-! ## Several instances (spec/10_state.md R36, spec/44_host_framer.md R192) -/

/-- R36: instances share nothing: a step of one leaves every other as it was and depends on its own state alone, so any two
schedules that give every instance equally many steps end in the same platform. -/
def Obligations.InstancesShareNothing : Prop :=
  (∀ (p q : Platform) (k : Nat), platformStep k p = .next q →
    q.length = p.length ∧ (∀ j, j ≠ k → q[j]? = p[j]?) ∧
    (∀ s, p[k]? = some s → ∃ t, step s = .next t ∧ q[k]? = some t)) ∧
  (∀ (order order' : List Nat) (p q : Platform), order.Perm order' → platformRun order p = .next q →
    platformRun order' p = .next q)

/-- R192: the blocks of one stream may be run on several instances and in any order: every plan that runs each block once,
on instances that have been reset, gives the output that one instance gives. Of calls that nothing interrupts
(notes/assumptions/24). -/
def Obligations.EveryScheduleGivesTheSameOutput : Prop :=
  (∀ (bits : List Bool) (plan : List Job) (p : Platform) (s : State),
    (plan.map Job.block).Perm (List.range ((bits.length + 3) / 4)) →
    (∀ j ∈ plan, ∃ c, p[j.core]? = some c ∧ c.wasReset = true) → s.wasReset = true →
    ∃ out q t, encodeMessageOn plan (bitText bits) p = .output out q ∧ encodeMessage (bitText bits) s = .output out t) ∧
  (∀ (symbols : List Symbol) (plan : List Job) (p : Platform) (s : State), symbols ≠ [] → symbols.length % 7 = 0 →
    (plan.map Job.block).Perm (List.range (symbols.length / 7)) →
    (∀ j ∈ plan, ∃ c, p[j.core]? = some c ∧ c.wasReset = true) → s.wasReset = true →
    ∃ out q t, decodeStreamOn plan (symbolText symbols) p = .output out q ∧
      decodeStream (symbolText symbols) s = .output out t)
end

