-- ==== Sys2Proof/Laws/Fields.lean ====
section
/-! SUPPORT. The fields of the words the model puts together: a field read back from RES, STAT or a command word is the
field that went in. -/

namespace Sys2Proof.Machine

@[simp] theorem resOp_packRes (op : BitVec 4) (val era : Mask) : resOp (packRes op val era) = op := by
  apply BitVec.eq_of_getLsbD_eq
  intro i hi
  simp only [resOp, packRes, BitVec.getLsbD_extractLsb', BitVec.getLsbD_append]
  interval_cases i <;> simp

@[simp] theorem resVal_packRes (op : BitVec 4) (val era : Mask) : resVal (packRes op val era) = val := by
  apply BitVec.eq_of_getLsbD_eq
  intro i hi
  simp only [resVal, packRes, BitVec.getLsbD_extractLsb', BitVec.getLsbD_append]
  interval_cases i <;> simp

@[simp] theorem resEra_packRes (op : BitVec 4) (val era : Mask) : resEra (packRes op val era) = era := by
  apply BitVec.eq_of_getLsbD_eq
  intro i hi
  simp only [resEra, packRes, BitVec.getLsbD_extractLsb', BitVec.getLsbD_append]
  interval_cases i <;> simp

@[simp] theorem statCode_packStat (count : BitVec 5) (pos : BitVec 3) (op code : BitVec 4) : statCode (packStat count pos op code) = code := by
  apply BitVec.eq_of_getLsbD_eq
  intro i hi
  simp only [statCode, packStat, BitVec.getLsbD_extractLsb', BitVec.getLsbD_append]
  interval_cases i <;> simp

@[simp] theorem statOp_packStat (count : BitVec 5) (pos : BitVec 3) (op code : BitVec 4) : statOp (packStat count pos op code) = op := by
  apply BitVec.eq_of_getLsbD_eq
  intro i hi
  simp only [statOp, packStat, BitVec.getLsbD_extractLsb', BitVec.getLsbD_append]
  interval_cases i <;> simp

@[simp] theorem statPos_packStat (count : BitVec 5) (pos : BitVec 3) (op code : BitVec 4) : statPos (packStat count pos op code) = pos := by
  apply BitVec.eq_of_getLsbD_eq
  intro i hi
  simp only [statPos, packStat, BitVec.getLsbD_extractLsb', BitVec.getLsbD_append]
  interval_cases i <;> simp

@[simp] theorem statMatches_packStat (count : BitVec 5) (pos : BitVec 3) (op code : BitVec 4) : statMatches (packStat count pos op code) = count := by
  apply BitVec.eq_of_getLsbD_eq
  intro i hi
  simp only [statMatches, packStat, BitVec.getLsbD_extractLsb', BitVec.getLsbD_append]
  interval_cases i <;> simp

@[simp] theorem opField_commandWord (op : BitVec 4) (val era : Mask) : opField (commandWord op val era) = op := by
  apply BitVec.eq_of_getLsbD_eq
  intro i hi
  simp only [opField, commandWord, BitVec.getLsbD_extractLsb', BitVec.getLsbD_append]
  interval_cases i <;> simp

@[simp] theorem valField_commandWord (op : BitVec 4) (val era : Mask) : valField (commandWord op val era) = val := by
  apply BitVec.eq_of_getLsbD_eq
  intro i hi
  simp only [valField, commandWord, BitVec.getLsbD_extractLsb', BitVec.getLsbD_append]
  interval_cases i <;> simp

@[simp] theorem eraField_commandWord (op : BitVec 4) (val era : Mask) : eraField (commandWord op val era) = era := by
  apply BitVec.eq_of_getLsbD_eq
  intro i hi
  simp only [eraField, commandWord, BitVec.getLsbD_extractLsb', BitVec.getLsbD_append]
  interval_cases i <;> simp

/-- The bits of the reserved mask: [7:4], [15] and [31:23]. -/
theorem reservedMask_bits : ∀ i, i < 32 → reservedMask.getLsbD i = (4 ≤ i && i < 8 || i == 15 || 23 ≤ i) := by decide

/-- R70: a command word put together from its fields has its reserved bits 0. -/
theorem commandWord_reserved (op : BitVec 4) (val era : Mask) : commandWord op val era &&& reservedMask = 0 := by
  apply BitVec.eq_of_getLsbD_eq
  intro i hi
  rw [BitVec.getLsbD_and, reservedMask_bits i hi]
  simp only [commandWord, BitVec.getLsbD_append]
  interval_cases i <;> simp

/-- R72, R78: the block of a canonical operand is spelled by that operand. -/
theorem blockVal_blockOperand (val era : Mask) (h : canonical val era = true) :
    blockVal (blockOperand val era) = val ∧ blockEra (blockOperand val era) = era := by
  have hb : ∀ i : Nat, (val.getLsbD i && era.getLsbD i) = false := by
    intro i
    have h0 : val &&& era = 0 := by simpa [canonical] using h
    rw [← BitVec.getLsbD_and, h0]
    simp
  constructor <;> apply BitVec.eq_of_getLsbD_eq <;> intro i hi <;>
    simp only [blockVal, blockEra, mask7, flag, BitVec.getLsbD_append, blockOperand, operandSymbol] <;>
    have := hb i <;> interval_cases i <;> simp <;> split <;> simp_all [isOne, isErased]

/-- R25, R70: RES and the command word use the same field positions. -/
theorem packRes_eq_commandWord (op : BitVec 4) (val era : Mask) : packRes op val era = commandWord op val era := rfl

end Sys2Proof.Machine
end

