-- ==== Sys2Proof/Laws/State.lean ====
section
/-! SUPPORT. One lemma per field of State and update of State: what each named operation writes and what it leaves
unchanged. -/

namespace Sys2Proof.Machine

@[simp] theorem State.commit_res (op : BitVec 4) (val era : Mask) (code : Code) (pos : BitVec 3) (count : BitVec 5) (s : State) : (s.commit op val era code pos count).res = packRes op val era := rfl
@[simp] theorem State.commit_stat (op : BitVec 4) (val era : Mask) (code : Code) (pos : BitVec 3) (count : BitVec 5) (s : State) : (s.commit op val era code pos count).stat = packStat count pos op (codeBits code) := rfl
@[simp] theorem State.commit_inFlight (op : BitVec 4) (val era : Mask) (code : Code) (pos : BitVec 3) (count : BitVec 5) (s : State) : (s.commit op val era code pos count).inFlight = s.inFlight := rfl
@[simp] theorem State.commit_wasReset (op : BitVec 4) (val era : Mask) (code : Code) (pos : BitVec 3) (count : BitVec 5) (s : State) : (s.commit op val era code pos count).wasReset = s.wasReset := rfl
@[simp] theorem State.commit_drivers (op : BitVec 4) (val era : Mask) (code : Code) (pos : BitVec 3) (count : BitVec 5) (s : State) : (s.commit op val era code pos count).drivers = s.drivers := rfl
@[simp] theorem State.commit_schedule (op : BitVec 4) (val era : Mask) (code : Code) (pos : BitVec 3) (count : BitVec 5) (s : State) : (s.commit op val era code pos count).schedule = s.schedule := rfl
@[simp] theorem State.commit_resets (op : BitVec 4) (val era : Mask) (code : Code) (pos : BitVec 3) (count : BitVec 5) (s : State) : (s.commit op val era code pos count).resets = s.resets := rfl
@[simp] theorem State.commit_draws (op : BitVec 4) (val era : Mask) (code : Code) (pos : BitVec 3) (count : BitVec 5) (s : State) : (s.commit op val era code pos count).draws = s.draws := rfl

@[simp] theorem State.rejectCommand_res (w : Word) (s : State) : (s.rejectCommand w).res = s.res := rfl
@[simp] theorem State.rejectCommand_stat (w : Word) (s : State) : (s.rejectCommand w).stat = packStat 0 0 (opField w) (codeBits .illegal) := rfl
@[simp] theorem State.rejectCommand_inFlight (w : Word) (s : State) : (s.rejectCommand w).inFlight = s.inFlight := rfl
@[simp] theorem State.rejectCommand_wasReset (w : Word) (s : State) : (s.rejectCommand w).wasReset = s.wasReset := rfl
@[simp] theorem State.rejectCommand_drivers (w : Word) (s : State) : (s.rejectCommand w).drivers = s.drivers := rfl
@[simp] theorem State.rejectCommand_schedule (w : Word) (s : State) : (s.rejectCommand w).schedule = s.schedule := rfl
@[simp] theorem State.rejectCommand_resets (w : Word) (s : State) : (s.rejectCommand w).resets = s.resets := rfl
@[simp] theorem State.rejectCommand_draws (w : Word) (s : State) : (s.rejectCommand w).draws = s.draws := rfl

@[simp] theorem State.applyReset_res (s : State) : (s.applyReset).res = 0 := rfl
@[simp] theorem State.applyReset_stat (s : State) : (s.applyReset).stat = 0 := rfl
@[simp] theorem State.applyReset_inFlight (s : State) : (s.applyReset).inFlight = none := rfl
@[simp] theorem State.applyReset_wasReset (s : State) : (s.applyReset).wasReset = true := rfl
@[simp] theorem State.applyReset_drivers (s : State) : (s.applyReset).drivers = s.drivers := rfl
@[simp] theorem State.applyReset_schedule (s : State) : (s.applyReset).schedule = s.schedule := rfl
@[simp] theorem State.applyReset_resets (s : State) : (s.applyReset).resets = s.resets := rfl
@[simp] theorem State.applyReset_draws (s : State) : (s.applyReset).draws = s.draws := rfl

@[simp] theorem State.accept_res (w : Word) (s : State) : (s.accept w).res = s.res := rfl
@[simp] theorem State.accept_stat (w : Word) (s : State) : (s.accept w).stat = s.stat := rfl
@[simp] theorem State.accept_inFlight (w : Word) (s : State) : (s.accept w).inFlight = some w := rfl
@[simp] theorem State.accept_wasReset (w : Word) (s : State) : (s.accept w).wasReset = s.wasReset := rfl
@[simp] theorem State.accept_drivers (w : Word) (s : State) : (s.accept w).drivers = s.drivers := rfl
@[simp] theorem State.accept_schedule (w : Word) (s : State) : (s.accept w).schedule = s.schedule := rfl
@[simp] theorem State.accept_resets (w : Word) (s : State) : (s.accept w).resets = s.resets := rfl
@[simp] theorem State.accept_draws (w : Word) (s : State) : (s.accept w).draws = s.draws := rfl

@[simp] theorem State.release_res (s : State) : (s.release).res = s.res := rfl
@[simp] theorem State.release_stat (s : State) : (s.release).stat = s.stat := rfl
@[simp] theorem State.release_inFlight (s : State) : (s.release).inFlight = none := rfl
@[simp] theorem State.release_wasReset (s : State) : (s.release).wasReset = s.wasReset := rfl
@[simp] theorem State.release_drivers (s : State) : (s.release).drivers = s.drivers := rfl
@[simp] theorem State.release_schedule (s : State) : (s.release).schedule = s.schedule := rfl
@[simp] theorem State.release_resets (s : State) : (s.release).resets = s.resets := rfl
@[simp] theorem State.release_draws (s : State) : (s.release).draws = s.draws := rfl

@[simp] theorem State.dropReset_res (s : State) : (s.dropReset).res = s.res := rfl
@[simp] theorem State.dropReset_stat (s : State) : (s.dropReset).stat = s.stat := rfl
@[simp] theorem State.dropReset_inFlight (s : State) : (s.dropReset).inFlight = s.inFlight := rfl
@[simp] theorem State.dropReset_wasReset (s : State) : (s.dropReset).wasReset = s.wasReset := rfl
@[simp] theorem State.dropReset_drivers (s : State) : (s.dropReset).drivers = s.drivers := rfl
@[simp] theorem State.dropReset_schedule (s : State) : (s.dropReset).schedule = s.schedule := rfl
@[simp] theorem State.dropReset_resets (s : State) : (s.dropReset).resets = s.resets.tail := rfl
@[simp] theorem State.dropReset_draws (s : State) : (s.dropReset).draws = s.draws := rfl

@[simp] theorem State.setDriver_res (s : State) (k : Nat) (d : Driver) : (s.setDriver k d).res = s.res := rfl
@[simp] theorem State.setDriver_stat (s : State) (k : Nat) (d : Driver) : (s.setDriver k d).stat = s.stat := rfl
@[simp] theorem State.setDriver_inFlight (s : State) (k : Nat) (d : Driver) : (s.setDriver k d).inFlight = s.inFlight := rfl
@[simp] theorem State.setDriver_wasReset (s : State) (k : Nat) (d : Driver) : (s.setDriver k d).wasReset = s.wasReset := rfl
@[simp] theorem State.setDriver_drivers (s : State) (k : Nat) (d : Driver) : (s.setDriver k d).drivers = s.drivers.set k d := rfl
@[simp] theorem State.setDriver_schedule (s : State) (k : Nat) (d : Driver) : (s.setDriver k d).schedule = s.schedule := rfl
@[simp] theorem State.setDriver_resets (s : State) (k : Nat) (d : Driver) : (s.setDriver k d).resets = s.resets := rfl
@[simp] theorem State.setDriver_draws (s : State) (k : Nat) (d : Driver) : (s.setDriver k d).draws = s.draws := rfl

@[simp] theorem State.nextTurn_res (s : State) : (s.nextTurn).res = s.res := rfl
@[simp] theorem State.nextTurn_stat (s : State) : (s.nextTurn).stat = s.stat := rfl
@[simp] theorem State.nextTurn_inFlight (s : State) : (s.nextTurn).inFlight = s.inFlight := rfl
@[simp] theorem State.nextTurn_wasReset (s : State) : (s.nextTurn).wasReset = s.wasReset := rfl
@[simp] theorem State.nextTurn_drivers (s : State) : (s.nextTurn).drivers = s.drivers := rfl
@[simp] theorem State.nextTurn_schedule (s : State) : (s.nextTurn).schedule = s.schedule.tail := rfl
@[simp] theorem State.nextTurn_resets (s : State) : (s.nextTurn).resets = s.resets := rfl
@[simp] theorem State.nextTurn_draws (s : State) : (s.nextTurn).draws = s.draws + 1 := rfl

@[simp] theorem State.withFetchWord_res (s : State) (nbits w : Nat) : (s.withFetchWord nbits w).res = s.res := rfl
@[simp] theorem State.withFetchWord_stat (s : State) (nbits w : Nat) : (s.withFetchWord nbits w).stat = s.stat := rfl
@[simp] theorem State.withFetchWord_inFlight (s : State) (nbits w : Nat) : (s.withFetchWord nbits w).inFlight = some (tableWord nbits w) := rfl
@[simp] theorem State.withFetchWord_wasReset (s : State) (nbits w : Nat) : (s.withFetchWord nbits w).wasReset = s.wasReset := rfl
@[simp] theorem State.withFetchWord_drivers (s : State) (nbits w : Nat) : (s.withFetchWord nbits w).drivers = s.drivers := rfl
@[simp] theorem State.withFetchWord_schedule (s : State) (nbits w : Nat) : (s.withFetchWord nbits w).schedule = s.schedule := rfl
@[simp] theorem State.withFetchWord_resets (s : State) (nbits w : Nat) : (s.withFetchWord nbits w).resets = .quiet :: s.resets := rfl
@[simp] theorem State.withFetchWord_draws (s : State) (nbits w : Nat) : (s.withFetchWord nbits w).draws = s.draws := rfl

@[simp] theorem Driver.advance_prog (d : Driver) : d.advance.prog = d.prog := rfl
@[simp] theorem Driver.advance_pc (d : Driver) : d.advance.pc = d.pc + 1 := rfl
@[simp] theorem Driver.advance_vars (d : Driver) : d.advance.vars = d.vars := rfl
@[simp] theorem Driver.advance_output (d : Driver) : d.advance.output = d.output := rfl
@[simp] theorem Driver.advance_halted (d : Driver) : d.advance.halted = d.halted := rfl

@[simp] theorem Driver.assign_vars (x : Var) (v : Word) (d : Driver) : (d.assign x v).vars = storeVar x v d.vars := rfl
@[simp] theorem Driver.assign_pc (x : Var) (v : Word) (d : Driver) : (d.assign x v).pc = d.pc + 1 := rfl
@[simp] theorem Driver.assign_prog (x : Var) (v : Word) (d : Driver) : (d.assign x v).prog = d.prog := rfl

@[simp] theorem Driver.stop_vars (d : Driver) : d.stop.vars = d.vars := rfl
@[simp] theorem Driver.stop_halted (d : Driver) : d.stop.halted = true := rfl

@[simp] theorem Driver.emit_vars (n : Nat) (kind : ResultKind) (xs : List Var) (d : Driver) :
    (d.emit n kind xs).vars = d.vars := rfl

end Sys2Proof.Machine
end

