-- ==== Sys2Proof/Laws/Ops.lean ====
section
/-! SUPPORT. One lemma per shared operation that says once everything it can do. -/

namespace Sys2Proof.Machine

/-! ## The commands -/

/-- The meaning of an instruction is a commit of a result: what it writes depends on the instruction alone (R23). -/
theorem exec_eq_commit (i : Instr) :
    ∃ op val era code pos count, ∀ s : State, exec i s = .next (s.commit op val era code pos count) := by
  cases i with
  | enc d => exact ⟨_, _, _, _, _, _, fun _ => rfl⟩
  | syn val era => exact ⟨_, _, _, _, _, _, fun _ => rfl⟩
  | dec val era => exact ⟨_, _, _, _, _, _, fun _ => rfl⟩

/-- A command word runs its instruction or is rejected; nothing else happens (R79). -/
theorem executeWord_cases (w : Word) (s : State) :
    (∃ i, decode w = .ok i ∧ executeWord w s = exec i s) ∨
    (∃ e, decode w = .error e ∧ executeWord w s = .next (s.rejectCommand w)) := by
  unfold executeWord
  cases h : decode w with
  | ok i => exact .inl ⟨i, rfl, rfl⟩
  | error e => exact .inr ⟨e, rfl, rfl⟩

/-- Every command word completes, and writes RES and STAT alone. -/
theorem executeWord_writes (w : Word) (s : State) :
    ∃ r c, executeWord w s = .next { s with res := r, stat := c } := by
  rcases executeWord_cases w s with ⟨i, -, h⟩ | ⟨e, -, h⟩
  · obtain ⟨op, val, era, code, pos, count, hi⟩ := exec_eq_commit i
    exact ⟨_, _, h.trans (hi s)⟩
  · exact ⟨s.res, _, h⟩

/-! ## The bus -/

theorem regAt_offset (r : Reg) : regAt r.offset = some r := by cases r <;> rfl

@[simp] theorem accessReg_offset (r : Reg) : accessReg r.offset 4 = some r := by cases r <;> rfl

/-- The accesses R52 leaves undefined are those of another width or at an offset that is no multiple of 4. -/
theorem accessReg_eq_none (off : Offset) (width : Nat) :
    accessReg off width = none ↔ width ≠ 4 ∨ off.toNat % 4 ≠ 0 := by
  have h : ∀ o : Offset, regAt o = none ↔ o.toNat % 4 ≠ 0 := by decide
  unfold accessReg
  split <;> simp_all

/-- A read answers the register's value, or is refused where the access is undefined. -/
theorem busRead_cases (s : State) (off : Offset) (width : Nat) :
    (∃ r, accessReg off width = some r ∧ s.busRead off width = .ok (s.readReg r)) ∨
    (accessReg off width = none ∧ s.busRead off width = .error .undefinedAccess) := by
  unfold State.busRead
  cases h : accessReg off width with
  | some r => exact .inl ⟨r, rfl, rfl⟩
  | none => exact .inr ⟨rfl, rfl⟩

/-- A write starts a command, or is not admitted before the first reset, or is ignored, or is refused where the access is
undefined. -/
theorem busWrite_cases (s : State) (off : Offset) (width : Nat) (v : Word) :
    (accessReg off width = some .cmd ∧ s.wasReset = true ∧ s.busWrite off width v = .ok (s.accept v)) ∨
    (accessReg off width = some .cmd ∧ s.wasReset = false ∧ s.busWrite off width v = .error .commandBeforeReset) ∨
    (∃ r, accessReg off width = some r ∧ r ≠ .cmd ∧ s.busWrite off width v = .ok s) ∨
    (accessReg off width = none ∧ s.busWrite off width v = .error .undefinedAccess) := by
  unfold State.busWrite
  cases h : accessReg off width with
  | none => exact .inr (.inr (.inr ⟨rfl, rfl⟩))
  | some r =>
    cases r <;> simp [State.writeReg]

/-! ## The variables of a host -/

theorem lookupVar_storeVar_same (x : Var) (v : Word) (vars : List (Var × Word)) :
    lookupVar x (storeVar x v vars) = some v := by
  induction vars with
  | nil => simp [storeVar, lookupVar]
  | cons p rest ih =>
    obtain ⟨y, u⟩ := p
    simp only [storeVar]
    split
    · simp [lookupVar]
    · split
      · simp [lookupVar]
      · next h => simp [lookupVar, h, ih]

theorem lookupVar_storeVar_other (x y : Var) (v : Word) (vars : List (Var × Word)) (h : y ≠ x) :
    lookupVar y (storeVar x v vars) = lookupVar y vars := by
  induction vars with
  | nil => simp [storeVar, lookupVar, h]
  | cons p rest ih =>
    obtain ⟨z, u⟩ := p
    simp only [storeVar]
    split
    · simp [lookupVar, h]
    · split
      · next hx => subst hx; simp [lookupVar, h]
      · simp [lookupVar, ih]

theorem mem_keys_storeVar (x : Var) (v : Word) (vars : List (Var × Word)) (y : Var) :
    y ∈ (storeVar x v vars).map Prod.fst ↔ y = x ∨ y ∈ vars.map Prod.fst := by
  induction vars with
  | nil => simp [storeVar]
  | cons p rest ih =>
    obtain ⟨z, u⟩ := p
    simp only [storeVar]
    split
    · simp
    · split
      · next hx => subst hx; simp
      · simp only [List.map_cons, List.mem_cons, ih]; tauto

/-- Storing a variable keeps the list canonical. -/
theorem storeVar_keeps_varsOk (x : Var) (v : Word) (vars : List (Var × Word)) (h : varsOk vars) :
    varsOk (storeVar x v vars) := by
  induction vars with
  | nil => simp [storeVar, varsOk]
  | cons p rest ih =>
    obtain ⟨z, u⟩ := p
    simp only [varsOk, List.map_cons, List.pairwise_cons] at h
    simp only [storeVar]
    split
    · next hx =>
      simp only [varsOk, List.map_cons, List.pairwise_cons, List.mem_cons]
      refine ⟨?_, h.1, h.2⟩
      rintro y (rfl | hy)
      · exact hx
      · exact Nat.lt_trans hx (h.1 y hy)
    · split
      · next hx => subst hx; exact List.pairwise_cons.2 h
      · next h1 h2 =>
        simp only [varsOk, List.map_cons, List.pairwise_cons]
        refine ⟨fun y hy => ?_, ih h.2⟩
        rcases (mem_keys_storeVar x v rest y).1 hy with rfl | hy
        · exact Nat.lt_of_le_of_ne (Nat.le_of_not_lt h1) (Ne.symm h2)
        · exact h.1 y hy

/-! ## A host's turn -/

/-- What a statement that answers a next state does: it replaces its own host, and either leaves the core alone, or has a
command accepted, or resets the core. -/
theorem runStatement_next {st : Stmt} {k : Nat} {d : Driver} {s t : State} (h : runStatement st k d s = .next t) :
    ∃ d', (varsOk d.vars → varsOk d'.vars) ∧
      (t = s.setDriver k d' ∨
       (∃ v, isCommandWrite st = true ∧ s.wasReset = true ∧ t = (s.accept v).setDriver k d') ∨
       (st = .rst ∧ t = s.applyReset.setDriver k d')) := by
  cases st with
  | wr off width e =>
    simp only [runStatement, hostWrite] at h
    rcases busWrite_cases s off width (evalExpr s.draws d.vars e) with ⟨h1, h2, h3⟩ | ⟨-, -, h3⟩ | ⟨r, -, -, h3⟩ | ⟨-, h3⟩ <;>
      simp only [h3] at h
    · cases h; exact ⟨d.advance, id, .inr (.inl ⟨_, by simp [isCommandWrite, h1], h2, rfl⟩)⟩
    · cases h
    · cases h; exact ⟨d.advance, id, .inl rfl⟩
    · cases h
  | rd off width x =>
    simp only [runStatement, hostRead] at h
    rcases busRead_cases s off width with ⟨r, -, h3⟩ | ⟨-, h3⟩ <;> simp only [h3] at h <;> cases h
    exact ⟨_, storeVar_keeps_varsOk _ _ _, .inl rfl⟩
  | set x e => cases h; exact ⟨_, storeVar_keeps_varsOk _ _ _, .inl rfl⟩
  | br cond l =>
    simp only [runStatement, hostJump] at h
    split at h
    · cases hj : d.jump l with
      | none => simp only [hj] at h; cases h
      | some d' =>
        simp only [hj] at h
        cases h
        refine ⟨d', ?_, .inl rfl⟩
        unfold Driver.jump at hj
        split at hj <;> cases hj
        exact id
    · cases h; exact ⟨d.advance, id, .inl rfl⟩
  | jmp l =>
    simp only [runStatement, hostJump] at h
    cases hj : d.jump l with
    | none => simp only [hj] at h; cases h
    | some d' =>
      simp only [hj] at h
      cases h
      refine ⟨d', ?_, .inl rfl⟩
      unfold Driver.jump at hj
      split at hj <;> cases hj
      exact id
  | rst => cases h; exact ⟨d.advance, id, .inr (.inr ⟨rfl, rfl⟩)⟩
  | halt => cases h; exact ⟨d.stop, id, .inl rfl⟩
  | label l => cases h; exact ⟨d.advance, id, .inl rfl⟩
  | result kind xs => cases h; exact ⟨d.emit s.draws kind xs, id, .inl rfl⟩

/-- What a turn that answers a next state does: no host moves, or the one whose turn it is executes a statement. -/
theorem hostTurn_next {s t : State} (h : hostTurn s = .next t) :
    t = s.nextTurn ∨
    ∃ d st, s.drivers[s.turn]? = some d ∧ d.statement = some st ∧ runStatement st s.turn d s.nextTurn = .next t := by
  unfold hostTurn at h
  split at h
  · cases h; exact .inl rfl
  · next d hd =>
    split at h
    · cases h; exact .inl rfl
    · next st hs => exact .inr ⟨d, st, hd, hs, h⟩

/-- The turn of a host that executes a statement is that statement. -/
theorem hostTurn_of_statement {s : State} {d : Driver} {st : Stmt} (hd : s.drivers[s.turn]? = some d)
    (hs : d.statement = some st) : hostTurn s = runStatement st s.turn d s.nextTurn := by
  simp only [hostTurn, hd, hs]

/-- A cut-off write moves its host on, or nothing happens. -/
theorem cutOffWrite_cases (s : State) :
    s.cutOffWrite = s ∨
    ∃ d st, s.drivers[s.turn]? = some d ∧ d.statement = some st ∧ isCommandWrite st = true ∧
      s.cutOffWrite = s.nextTurn.setDriver s.turn d.advance := by
  unfold State.cutOffWrite
  split
  · exact .inl rfl
  · next d hd =>
    split
    · exact .inl rfl
    · next st hs =>
      split
      · next hc => exact .inr ⟨d, st, hd, hs, hc, rfl⟩
      · exact .inl rfl

/-! ## A step -/

/-- What a step that answers a next state does: the command in flight completes, or a host has its turn, or a reset event
is taken. -/
theorem step_next {s t : State} (h : step s = .next t) :
    (s.resetNow = .quiet ∧ ∃ w, s.inFlight = some w ∧ executeWord w s.dropReset.release = .next t) ∨
    (s.resetNow = .quiet ∧ s.inFlight = none ∧ hostTurn s.dropReset = .next t) ∨
    (s.resetNow ≠ .quiet ∧ t = s.dropReset.applyReset) ∨
    (s.resetNow = .withWrite ∧ s.inFlight = none ∧ t = s.dropReset.applyReset.cutOffWrite) := by
  unfold step cycle at h
  split at h
  · next hq =>
    unfold quietCycle at h
    split at h
    · next w hw => exact .inl ⟨hq, w, hw, h⟩
    · next hn => exact .inr (.inl ⟨hq, hn, h⟩)
  · next hq => cases h; exact .inr (.inr (.inl ⟨by simp [hq], rfl⟩))
  · next hq =>
    unfold State.resetWithWrite at h
    split at h
    · next hn => cases h; exact .inr (.inr (.inr ⟨hq, hn, rfl⟩))
    · cases h; exact .inr (.inr (.inl ⟨by simp [hq], rfl⟩))

/-- A step in which the host `d` executes `st` is that statement. -/
theorem step_of_executes {s : State} {d : Driver} {st : Stmt} (h : s.Executes d st) :
    step s = runStatement st s.turn d s.afterTurn := by
  have hf : s.dropReset.inFlight = none := h.free
  simp only [step, cycle, h.quiet, quietCycle, hf]
  exact hostTurn_of_statement (s := s.dropReset) h.host h.stmt

/-- A step with a command in flight and no reset event is the command, on the state with the port free. -/
theorem step_of_inFlight {s : State} {w : Word} (hq : s.resetNow = .quiet) (hw : s.inFlight = some w) :
    step s = executeWord w s.dropReset.release := by
  have hf : s.dropReset.inFlight = some w := hw
  simp only [step, cycle, hq, quietCycle, hf, completeCommand]

end Sys2Proof.Machine
end

