-- ==== Sys2Proof/Laws/Framer.lean ====
section
/-! SUPPORT. What the framer's operations do: one command and its read, a run of commands, and texts that spell bits or
symbols. -/

namespace Sys2Proof.Machine

/-- R58, R180: after a reset a block's command completes, and the read after it gives RES. -/
theorem runBlock_eq (w : Word) (s : State) (h : s.wasReset = true) :
    ∃ t, executeWord w s.release = .next t ∧ t.wasReset = true ∧ t.inFlight = none ∧
      runBlock w s = some (t.res, t) := by
  have hb : s.busWrite Reg.cmd.offset 4 w = .ok (s.accept w) := by
    simp only [State.busWrite, accessReg_offset, State.writeReg, h, if_true]
  have hi : issueCommand w s = executeWord w s.release := by
    simp only [issueCommand, hb, State.accept_inFlight, completeCommand]; rfl
  obtain ⟨r, c, hx⟩ := executeWord_writes w s.release
  refine ⟨_, hx, h, rfl, ?_⟩
  simp only [runBlock, hi, hx, State.busRead, accessReg_offset, State.readReg, State.release_wasReset, h, if_true]

/-- A run of commands answers after a reset; its state stays one after a reset. -/
theorem runBlocks_answers (kind : ResultKind) (ws : List Word) (s : State) (h : s.wasReset = true) :
    ∃ out t, runBlocks kind ws s = some (out, t) ∧ t.wasReset = true := by
  induction ws generalizing s with
  | nil => exact ⟨[], s, rfl, h⟩
  | cons w ws ih =>
    obtain ⟨t, -, ht, -, hr⟩ := runBlock_eq w s h
    obtain ⟨out, u, hu, hw⟩ := ih t ht
    exact ⟨resultSymbols kind t.res ++ out, u, by simp only [runBlocks, hr, hu], hw⟩

/-- The run of two lists of commands is the one after the other, outputs joined. -/
theorem runBlocks_append (kind : ResultKind) (as bs : List Word) (s : State) :
    runBlocks kind (as ++ bs) s =
      (runBlocks kind as s).bind fun (outA, t) => (runBlocks kind bs t).map fun (outB, u) => (outA ++ outB, u) := by
  induction as generalizing s with
  | nil => simp [runBlocks]
  | cons a as ih =>
    simp only [List.cons_append, runBlocks]
    cases runBlock a s with
    | none => rfl
    | some p =>
      simp only [ih]
      cases runBlocks kind as p.2 with
      | none => rfl
      | some q => cases h : runBlocks kind bs q.2 <;> simp [h]

/-- R182: a message is split into `ceil(n / 4)` groups. -/
theorem nibbleGroups_length (bits : List Bool) : (nibbleGroups bits).length = (bits.length + 3) / 4 := by
  induction bits using nibbleGroups.induct <;> simp_all [nibbleGroups]
  omega

/-- R185: a stream of `7n` symbols is split into `n` blocks. -/
theorem blockGroups_length (n : Nat) (xs : List Symbol) (h : xs.length = 7 * n) : (blockGroups xs).length = n := by
  induction n generalizing xs with
  | zero =>
    obtain rfl := List.length_eq_zero_iff.1 h
    rfl
  | succ n ih =>
    match xs, h with
    | _ :: _ :: _ :: _ :: _ :: _ :: _ :: rest, h =>
      rw [blockGroups, List.length_cons, ih rest (by simp only [List.length_cons] at h; omega)]

/-- The blocks of two streams joined are those of each, where the first is a whole number of blocks. -/
theorem blockGroups_append (n : Nat) (a b : List Symbol) (h : a.length = 7 * n) :
    blockGroups (a ++ b) = blockGroups a ++ blockGroups b := by
  induction n generalizing a with
  | zero =>
    obtain rfl := List.length_eq_zero_iff.1 h
    rfl
  | succ n ih =>
    match a, h with
    | _ :: _ :: _ :: _ :: _ :: _ :: _ :: rest, h =>
      simp only [List.cons_append, blockGroups, ih rest (by simp only [List.length_cons] at h; omega)]

/-- Every result word gives seven symbols of a codeword or four of a partial nibble. -/
theorem resultSymbols_length (kind : ResultKind) (r : Word) :
    (resultSymbols kind r).length = match kind with | .codeword => 7 | .partialNibble => 4 := by
  cases kind <;> rfl

/-- R23: a legal word's result is the same from every reset state: what its instruction writes to RES. -/
theorem runBlock_of_decode (w : Word) (i : Instr) (h : decode w = .ok i) :
    ∃ r, (∀ s, ∃ t, exec i s = .next t ∧ t.res = r) ∧
      ∀ s : State, s.wasReset = true → ∃ t, runBlock w s = some (r, t) ∧ t.wasReset = true := by
  obtain ⟨op, val, era, code, pos, count, hc⟩ := exec_eq_commit i
  refine ⟨packRes op val era, fun s => ⟨_, hc s, rfl⟩, fun s hs => ?_⟩
  obtain ⟨t, hx, ht, -, hr⟩ := runBlock_eq w s hs
  simp only [executeWord, h, hc] at hx
  cases hx
  exact ⟨_, hr, ht⟩

/-- Where each word has one result from every reset state, a run gives the symbols of these results in order. -/
theorem runBlocks_of_results (kind : ResultKind) (f : Word → Word) (ws : List Word)
    (h : ∀ w ∈ ws, ∀ s : State, s.wasReset = true → ∃ t, runBlock w s = some (f w, t) ∧ t.wasReset = true) (s : State)
    (hs : s.wasReset = true) :
    ∃ t, runBlocks kind ws s = some (ws.flatMap fun w => resultSymbols kind (f w), t) ∧ t.wasReset = true := by
  induction ws generalizing s with
  | nil => exact ⟨s, rfl, hs⟩
  | cons w ws ih =>
    obtain ⟨t, hr, ht⟩ := h w (List.mem_cons_self ..) s hs
    obtain ⟨u, hu, hw⟩ := ih (fun w hw => h w (List.mem_cons_of_mem _ hw)) t ht
    exact ⟨u, by simp only [runBlocks, hr, hu, List.flatMap_cons], hw⟩

/-- A text whose characters all have a meaning is read whole. -/
theorem parseAll_map {α : Type} (f : Char → Option α) (g : α → Char) (h : ∀ x, f (g x) = some x) (xs : List α) :
    parseAll f (xs.map g) = some xs := by
  induction xs with
  | nil => rfl
  | cons x xs ih => simp only [List.map_cons, parseAll, h, ih]

/-- A text with a character that has no meaning is not read. -/
theorem parseAll_eq_none {α : Type} (f : Char → Option α) (text : List Char) (h : ∃ c ∈ text, f c = none) :
    parseAll f text = none := by
  induction text with
  | nil => obtain ⟨c, hc, -⟩ := h; cases hc
  | cons a rest ih =>
    obtain ⟨c, hc, hn⟩ := h
    rcases List.mem_cons.1 hc with rfl | hc
    · simp only [parseAll, hn]
    · rw [parseAll, ih ⟨c, hc, hn⟩]
      cases f a <;> rfl

/-- The list read from a text is as long as the text. -/
theorem parseAll_length {α : Type} (f : Char → Option α) (text : List Char) (xs : List α)
    (h : parseAll f text = some xs) : xs.length = text.length := by
  induction text generalizing xs with
  | nil => cases h; rfl
  | cons a rest ih =>
    simp only [parseAll] at h
    cases h1 : f a <;> cases h2 : parseAll f rest <;> simp only [h1, h2] at h <;> cases h
    simp [ih _ h2]

@[simp] theorem symbolOfChar_charOfSymbol (x : Symbol) : symbolOfChar (charOfSymbol x) = some x := by
  cases x with
  | bit b => cases b <;> rfl
  | erased => rfl

@[simp] theorem bitOfChar_charOfSymbol (b : Bool) : bitOfChar (charOfSymbol (.bit b)) = some b := by cases b <;> rfl

/-- A bit character that is neither `0` nor `1` has no meaning. -/
theorem bitOfChar_eq_none (c : Char) (h0 : c ≠ '0') (h1 : c ≠ '1') : bitOfChar c = none := by simp [bitOfChar, h0, h1]

/-- A symbol character outside `0`, `1`, `?` has no meaning. -/
theorem symbolOfChar_eq_none (c : Char) (h0 : c ≠ '0') (h1 : c ≠ '1') (h2 : c ≠ '?') : symbolOfChar c = none := by
  simp [symbolOfChar, h0, h1, h2]

end Sys2Proof.Machine
end

