-- ==== Sys2Proof/Laws/Assembler.lean ====
section
/-! SUPPORT. What the assembler's operations do: comments, words of a line, and operand texts. -/

namespace Sys2Proof.Machine

/-- A text without `;` is its own line; what follows a `;` is dropped. -/
theorem withoutComment_append (text comment : List Char) (h : ∀ c ∈ text, c ≠ ';') :
    withoutComment (text ++ ';' :: comment) = text ∧ withoutComment text = text := by
  induction text with
  | nil => exact ⟨rfl, rfl⟩
  | cons x xs ih =>
    have hx : (x != ';') = true := by simpa using h x (List.mem_cons_self ..)
    obtain ⟨h1, h2⟩ := ih fun c hc => h c (List.mem_cons_of_mem _ hc)
    simp only [withoutComment] at h1 h2 ⊢
    exact ⟨by simp only [List.cons_append, List.takeWhile_cons, hx, if_true, h1],
      by simp only [List.takeWhile_cons, hx, if_true, h2]⟩

/-- A run of characters without blanks at the end of a line is read into one word. -/
theorem splitWords_run (word text : List Char) (h : ∀ c ∈ text, isBlank c = false) (hne : word ++ text ≠ []) :
    splitWords word text = [word.reverse ++ text] := by
  induction text generalizing word with
  | nil =>
    have hw : word ≠ [] := by simpa using hne
    simp [splitWords, hw]
  | cons c text ih =>
    have hc := h c (List.mem_cons_self ..)
    rw [splitWords, if_neg (by simp [hc]), ih _ (fun d hd => h d (List.mem_cons_of_mem _ hd)) (by simp)]
    simp

/-- A run of characters without blanks before a blank is a word, and the rest of the line is split after it. -/
theorem splitWords_run_blank (word text rest : List Char) (b : Char) (h : ∀ c ∈ text, isBlank c = false)
    (hb : isBlank b = true) (hne : word ++ text ≠ []) :
    splitWords word (text ++ b :: rest) = (word.reverse ++ text) :: splitWords [] rest := by
  induction text generalizing word with
  | nil =>
    have hw : word ≠ [] := by simpa using hne
    simp [splitWords, hw, hb]
  | cons c text ih =>
    have hc := h c (List.mem_cons_self ..)
    rw [List.cons_append, splitWords, if_neg (by simp [hc]),
      ih _ (fun d hd => h d (List.mem_cons_of_mem _ hd)) (by simp)]
    simp

/-- A line of two words with one space between, and then nothing or a comment, is assembled from these two words. -/
theorem assembleLine_two_words (mnemonic operand tail : List Char)
    (hm : ∀ c ∈ mnemonic, isBlank c = false ∧ c ≠ ';') (ho : ∀ c ∈ operand, isBlank c = false ∧ c ≠ ';')
    (hm0 : mnemonic ≠ []) (ho0 : operand ≠ []) (ht : tail = [] ∨ ∃ comment, tail = ';' :: comment) :
    assembleLine (mnemonic ++ ' ' :: (operand ++ tail)) = assembleWords [mnemonic, operand] := by
  have hs : ∀ c ∈ mnemonic ++ ' ' :: operand, c ≠ ';' := by
    intro c hc
    rcases List.mem_append.1 hc with hc | hc
    · exact (hm c hc).2
    · rcases List.mem_cons.1 hc with rfl | hc
      · decide
      · exact (ho c hc).2
  have hw : withoutComment (mnemonic ++ ' ' :: (operand ++ tail)) = mnemonic ++ ' ' :: operand := by
    rcases ht with rfl | ⟨comment, rfl⟩
    · rw [List.append_nil]
      exact (withoutComment_append _ [] hs).2
    · have h := (withoutComment_append _ comment hs).1
      rwa [List.append_assoc, List.cons_append] at h
  rw [assembleLine, hw, splitWords_run_blank [] mnemonic operand ' ' (fun c hc => (hm c hc).1) (by decide) (by simpa using hm0),
    splitWords_run [] operand (fun c hc => (ho c hc).1) (by simpa using ho0)]
  rfl

/-- The character of a symbol is no blank and starts no comment. -/
theorem charOfSymbol_plain (x : Symbol) : isBlank (charOfSymbol x) = false ∧ charOfSymbol x ≠ ';' := by
  cases x with
  | bit b => cases b <;> decide
  | erased => decide

/-- The text of a nibble is read as that nibble. -/
theorem nibbleText_nibbleString (n : Nibble) : nibbleText (nibbleString n) = some n := by
  have h : nibbleString n = [n.d1, n.d2, n.d3, n.d4].map (fun b => charOfSymbol (.bit b)) := rfl
  rw [nibbleText, h, parseAll_map bitOfChar _ bitOfChar_charOfSymbol]

/-- The text of a block is read as that block. -/
theorem blockText_blockString (b : Block) : blockText (blockString b) = some b := by
  rw [blockText, blockString, parseAll_map symbolOfChar _ symbolOfChar_charOfSymbol]
  rfl

/-- A nibble text is four characters over `0`, `1`. -/
theorem nibbleText_eq_none (text : List Char) (h : text.length ≠ 4 ∨ ∃ c ∈ text, c ≠ '0' ∧ c ≠ '1') :
    nibbleText text = none := by
  unfold nibbleText
  rcases h with h | ⟨c, hc, h0, h1⟩
  · split
    · next hp => exact absurd (parseAll_length _ _ _ hp).symm h
    · rfl
  · rw [parseAll_eq_none _ _ ⟨c, hc, bitOfChar_eq_none c h0 h1⟩]

/-- A block text is seven characters over `0`, `1`, `?`. -/
theorem blockText_eq_none (text : List Char) (h : text.length ≠ 7 ∨ ∃ c ∈ text, c ≠ '0' ∧ c ≠ '1' ∧ c ≠ '?') :
    blockText text = none := by
  unfold blockText
  rcases h with h | ⟨c, hc, h0, h1, h2⟩
  · split
    · next hp => exact absurd (parseAll_length _ _ _ hp).symm h
    · rfl
  · rw [parseAll_eq_none _ _ ⟨c, hc, symbolOfChar_eq_none c h0 h1 h2⟩]

/-- Two words are assembled by the operand form of the first; any other list of words is refused, and no word is nothing. -/
theorem assembleWords_cases (words : List (List Char)) :
    (words = [] ∧ assembleWords words = .ok none) ∨
    (∃ operand, words = [['E', 'N', 'C'], operand] ∧ assembleWords words = asmWord encWord (nibbleText operand)) ∨
    (∃ operand, words = [['S', 'Y', 'N'], operand] ∧ assembleWords words = asmWord synWord (blockText operand)) ∨
    (∃ operand, words = [['D', 'E', 'C'], operand] ∧ assembleWords words = asmWord decWord (blockText operand)) ∨
    (∃ operand, words = [['.', 'c', 'm', 'd'], operand] ∧ assembleWords words = asmWord id (rawWord operand)) ∨
    (∃ mnemonic rest, words = mnemonic :: rest ∧ ∃ e, assembleWords words = .error e) := by
  unfold assembleWords
  split
  · exact .inl ⟨rfl, rfl⟩
  · exact .inr (.inl ⟨_, rfl, rfl⟩)
  · exact .inr (.inr (.inl ⟨_, rfl, rfl⟩))
  · exact .inr (.inr (.inr (.inl ⟨_, rfl, rfl⟩)))
  · exact .inr (.inr (.inr (.inr (.inl ⟨_, rfl, rfl⟩))))
  · refine .inr (.inr (.inr (.inr (.inr ⟨_, _, rfl, ?_⟩))))
    split
    · exact ⟨_, rfl⟩
    · exact ⟨_, rfl⟩

end Sys2Proof.Machine
end

