-- ==== Sys2Proof/Laws/PerInstr.lean ====
section
/-! SUPPORT. The statements made of every instruction, one lemma per constructor. -/

namespace Sys2Proof.Laws.Layout

open Sys2Proof.Machine

/-- R71: the opcode of an instruction. -/
def opcode : Instr → BitVec 4
  | .enc _ => 0x1#4
  | .syn _ _ => 0x2#4
  | .dec _ _ => 0x3#4

/-- R70, R71: the word of an instruction carries its opcode, and its reserved bits are 0. -/
def Statement (i : Instr) : Prop := opField (encode i) = opcode i ∧ encode i &&& reservedMask = 0

theorem enc (d : BitVec 4) : Statement (.enc d) := ⟨opField_commandWord _ _ _, commandWord_reserved _ _ _⟩

theorem syn (val era : Mask) : Statement (.syn val era) := ⟨opField_commandWord _ _ _, commandWord_reserved _ _ _⟩

theorem dec (val era : Mask) : Statement (.dec val era) := ⟨opField_commandWord _ _ _, commandWord_reserved _ _ _⟩

end Sys2Proof.Laws.Layout
end

