-- ==== Sys2Proof/Tests/Slice0.lean ====
section
/-! SUPPORT. The model's own tests: ill-formed terms that WellFormed refuses, command words written out from the spec's
encodings, one step of each instruction with the result spec/95_test_vectors.md gives, and for each statement with
hypotheses a witness that meets them. -/

namespace Sys2Proof.Tests

open Sys2Proof.Machine Sys2Proof.Claims

/-! ## Helpers -/

/-- The registers after an outcome, where it is a next state. -/
def regsOf : Host.Outcome State Fault Refusal → Option (Word × Word)
  | .next s => some (s.res, s.stat)
  | _ => none

/-- The registers after the command word `w` is run as the first command after reset. -/
def afterWord (w : Nat) : Option (Word × Word) := regsOf (step (State.reset.withFetchWord 32 w))

/-- After reset and `ENC 1011` (the start state of spec/95_test_vectors.md §5). -/
def afterEnc : State := { State.reset with res := 0x00006601, stat := 0x00000011 }

/-- A reset machine with the command `w` in flight. -/
def flying (w : Word) : State := { State.reset with inFlight := some w }

/-- One host about to execute `st` on a reset machine. -/
def oneHost (st : Stmt) : State := State.launch [st]

/-- One host about to execute `st` on a machine that has not been reset. -/
def coldHost (st : Stmt) : State := State.powerUp [st]

/-! ## WellFormed: an ill-formed term for each check -/

/-- R74: position 0 erased and carrying value 1. -/
theorem test_syn_not_canonical : (Instr.syn 0b0000001#7 0b0000001#7).wellFormed = false := by decide

/-- R74: every position erased and carrying value 1 (V-ILL-11's operand). -/
theorem test_dec_not_canonical : (Instr.dec 0b1111111#7 0b1111111#7).wellFormed = false := by decide

theorem test_canonical_accepted : (Instr.dec 0b1100000#7 0b0000111#7).wellFormed = true := by decide

/-! ## Decoding: words written out bit by bit from R70 (OP [3:0], VAL [14:8], ERA [22:16]) -/

/-- `ENC 1011` (R78): d1 d2 d3 d4 = 1 0 1 1 in bits 8 to 11. -/
theorem test_decode_enc : decode 0b00000000000000000000110100000001#32 = .ok (.enc 0b1101#4) := by rfl

/-- `SYN 0?10011` (R78): position 1 erased. -/
theorem test_decode_syn :
    decode 0b00000000000000100110010000000010#32 = .ok (.syn 0b1100100#7 0b0000010#7) := by rfl

/-- `DEC ???0011` (R78): positions 0 to 2 erased. -/
theorem test_decode_dec :
    decode 0b00000000000001110110000000000011#32 = .ok (.dec 0b1100000#7 0b0000111#7) := by rfl

/-- V-ILL-01, V-ILL-04, V-ILL-05, V-ILL-07 and V-ILL-10: no instruction. -/
theorem test_decode_illegal :
    decode 0x00000000#32 = .error .badOp ∧ decode 0x00001001#32 = .error .encOperandTooWide ∧
    decode 0x00010001#32 = .error .encOperandTooWide ∧ decode 0x00008002#32 = .error .reservedBitSet ∧
    decode 0x00010103#32 = .error .nonCanonicalBlock := by refine ⟨?_, ?_, ?_, ?_, ?_⟩ <;> rfl

/-- Bytes as they travel (R53): the lowest address carries bits [7:0]. -/
theorem test_decode_bytes :
    decodeBytes [0x03#8, 0x60#8, 0x07#8, 0x00#8, 0xAA#8] = .ok (.dec 0b1100000#7 0b0000111#7, [0xAA#8]) ∧
    decodeBytes [0x03#8, 0x60#8] = .error .truncated := ⟨by rfl, by rfl⟩

/-- R80: the assembler's words of R78. -/
theorem test_assemble :
    assembleLine "ENC 1011 ; one nibble".toList = .ok (some 0x00000D01) ∧
    assembleLine "  SYN 0?10011".toList = .ok (some 0x00026402) ∧
    assembleLine ".cmd 0x00076703".toList = .ok (some 0x00076703) ∧
    assembleLine "ENC 10?1".toList = .error .badOperand ∧ assembleLine "NOP".toList = .error .unknownMnemonic := by
  refine ⟨?_, ?_, ?_, ?_, ?_⟩ <;> rfl

/-! ## One step of each instruction, from spec/95_test_vectors.md -/

/-- spec/41_encode.md R105, row `1011`. -/
theorem test_enc : afterWord 0x00000D01 = some (0x00006601, 0x00000011) := by decide

/-- R105, row `0001`: only d4, covered by every parity bit. -/
theorem test_enc_d4 : afterWord 0x00000801 = some (0x00004B01, 0x00000011) := by decide

/-- V-SYN-08: position 4 flipped, syndrome number 5. -/
theorem test_syn : afterWord 0x00007602 = some (0x00000502, 0x00000021) := by decide

/-- V-SYN-16: position 5 erased, s2 and s4 indeterminate. -/
theorem test_syn_erased : afterWord 0x00204602 = some (0x00060002, 0x00000021) := by decide

/-- V-DEC-11: two flips, miscorrected at position 2. -/
theorem test_dec : afterWord 0x00006503 = some (0x00000C03, 0x00000333) := by decide

/-- V-DEC-43: an ambiguous support of three positions. -/
theorem test_dec_ambiguous : afterWord 0x00076003 = some (0x00010C03, 0x00020036) := by decide

/-- V-ILL-12: all ones, after `ENC 1011`. -/
theorem test_illegal :
    regsOf (step (afterEnc.withFetchWord 32 0xFFFFFFFF)) = some (0x00006601, 0x000000FF) := by decide

/-! ## The framer (spec/95_test_vectors.md §6) -/

/-- The text a call of the framer gives out. -/
def outputOf {σ : Type} : FramerResult σ → Option (List Char)
  | .output symbols _ => some (symbols.map charOfSymbol)
  | _ => none

/-- V-FRM-04. -/
theorem test_encode_message :
    outputOf (encodeMessage "10110".toList State.reset) = some "01100110000000".toList := by decide

/-- V-FRM-12. -/
theorem test_decode_stream :
    outputOf (decodeStream "1110011???0011?110111".toList State.reset) = some "1011?0111111".toList := by
  decide +kernel

/-- V-FRM-19: the length is checked before the alphabet. -/
theorem test_decode_stream_rejects :
    decodeStream "011001X000".toList State.reset = .rejected .lengthMismatch := by rfl

/-! ## Witnesses: states and operands that meet the hypotheses of the statements -/

/-- A launched host executes its first statement. -/
theorem test_launch_executes (st : Stmt) : (oneHost st).Executes (Driver.launch [st]) st := ⟨rfl, rfl, rfl, rfl⟩

/-- So does one before the first reset. -/
theorem test_powerUp_executes (st : Stmt) : (coldHost st).Executes (Driver.launch [st]) st := ⟨rfl, rfl, rfl, rfl⟩

theorem test_witness_ResetValues : (State.powerUp []).wasReset = false := rfl

theorem test_witness_ResetEventClearsRegisters :
    (oneHost .rst).Executes (Driver.launch [.rst]) .rst ∧ { oneHost .rst with resets := [.alone] }.resetNow ≠ .quiet ∧
    { oneHost .rst with resets := [.alone] }.resetNow = .alone := ⟨test_launch_executes _, by decide, rfl⟩

/-- V-RST-03: `DEC ???????` in flight. -/
theorem test_witness_ResetAbandonsCommandInFlight :
    { flying 0x007F0003 with resets := [.alone] }.inFlight = some 0x007F0003 ∧
    { flying 0x007F0003 with resets := [.alone] }.resetNow ≠ .quiet := ⟨rfl, by decide⟩

/-- V-RST-04: reset and `WR CMD, 0x0000_0D01` at the same time. -/
theorem test_witness_ResetBeatsSimultaneousWrite :
    let st := Stmt.wrReg .cmd (.const 0x00000D01)
    let s := { oneHost st with resets := [.withWrite] }
    s.resetNow = .withWrite ∧ s.inFlight = none ∧ s.drivers[s.turn]? = some (Driver.launch [st]) ∧
      (Driver.launch [st]).statement = some st := ⟨rfl, rfl, rfl, rfl⟩

theorem test_witness_BeforeFirstReset :
    (∀ r x, (coldHost (.rdReg r x)).Executes (Driver.launch [.rdReg r x]) (.rdReg r x) ∧
      (coldHost (.rdReg r x)).wasReset = false) ∧
    (∀ e, (coldHost (.wrReg .cmd e)).Executes (Driver.launch [.wrReg .cmd e]) (.wrReg .cmd e) ∧
      (coldHost (.wrReg .cmd e)).wasReset = false) :=
  ⟨fun _ _ => ⟨test_powerUp_executes _, rfl⟩, fun _ => ⟨test_powerUp_executes _, rfl⟩⟩

theorem test_witness_CommandWriteIsAcceptedThenCompletes :
    ((oneHost (.wrReg .cmd (.const 0x00000D01))).Executes (Driver.launch [.wrReg .cmd (.const 0x00000D01)])
        (.wrReg .cmd (.const 0x00000D01)) ∧ (oneHost (.wrReg .cmd (.const 0x00000D01))).wasReset = true) ∧
    ((flying 0x00000D01).resetNow = .quiet ∧ (flying 0x00000D01).inFlight = some 0x00000D01) :=
  ⟨⟨test_launch_executes _, rfl⟩, rfl, rfl⟩

theorem test_witness_StepRunsDecodedInstruction :
    (flying 0x00026402).resetNow = .quiet ∧ (flying 0x00026402).inFlight = some 0x00026402 ∧
    decode 0x00026402 = .ok (.syn 0b1100100#7 0b0000010#7) := ⟨rfl, rfl, by rfl⟩

/-- Every register, after a reset. -/
theorem test_witness_ReadsHaveNoSideEffects (r : Reg) (x : Var) :
    (oneHost (.rdReg r x)).Executes (Driver.launch [.rdReg r x]) (.rdReg r x) ∧
    (oneHost (.rdReg r x)).wasReset = true := ⟨test_launch_executes _, rfl⟩

/-- Every register but CMD. -/
theorem test_witness_WritesToOtherRegistersAreIgnored :
    ∀ r ∈ [Reg.res, Reg.stat, Reg.rsv], r ≠ .cmd ∧
      (oneHost (.wrReg r (.const 0xFFFFFFFF))).Executes (Driver.launch [.wrReg r (.const 0xFFFFFFFF)])
        (.wrReg r (.const 0xFFFFFFFF)) := by
  intro r hr
  refine ⟨?_, test_launch_executes _⟩
  rintro rfl
  simp at hr

/-- V-REG-09 to V-REG-12 (a byte, a half word, a misaligned word, eight bytes), and the four offsets of the register map. -/
theorem test_witness_OnlyAlignedWordAccessesAreDefined :
    ((1 : Nat) ≠ 4 ∨ (0x4#4 : Offset).toNat % 4 ≠ 0) ∧ ((2 : Nat) ≠ 4 ∨ (0x0#4 : Offset).toNat % 4 ≠ 0) ∧
    ((4 : Nat) ≠ 4 ∨ (0x2#4 : Offset).toNat % 4 ≠ 0) ∧ ((8 : Nat) ≠ 4 ∨ (0x0#4 : Offset).toNat % 4 ≠ 0) ∧
    (∀ off ∈ [0x0#4, 0x4#4, 0x8#4, 0xC#4], (off : Offset).toNat % 4 = 0) ∧
    (∀ off width e, (oneHost (.wr off width e)).Executes (Driver.launch [.wr off width e]) (.wr off width e) ∧
      (oneHost (.wr off width e)).wasReset = true) ∧
    (∀ off width x, (oneHost (.rd off width x)).Executes (Driver.launch [.rd off width x]) (.rd off width x) ∧
      (oneHost (.rd off width x)).wasReset = true) :=
  ⟨by decide, by decide, by decide, by decide, by decide, fun _ _ _ => ⟨test_launch_executes _, rfl⟩,
    fun _ _ _ => ⟨test_launch_executes _, rfl⟩⟩

/-- The first address above the window, and the address below it where the window does not start at 0. -/
theorem test_witness_WindowLiesAtBase :
    Config.hamBase + 16 ≤ Config.hamBase + 16 ∧ (0 < Config.hamBase → Config.hamBase - 1 < Config.hamBase) :=
  ⟨Nat.le_refl _, fun h => by omega⟩

/-- R53's example: the bytes of 0x0000_6601. -/
theorem test_witness_ByteLanesAreLittleEndian : wordBytes 0x00006601 = [0x01#8, 0x66#8, 0x00#8, 0x00#8] ∧ 3 < 4 :=
  ⟨by rfl, by decide⟩

theorem test_witness_ReadAfterCommandReturnsItsResult :
    (∀ w : Word, (oneHost (.wrReg .cmd (.const w))).Executes (Driver.launch [.wrReg .cmd (.const w)])
        (.wrReg .cmd (.const w)) ∧ (oneHost (.wrReg .cmd (.const w))).wasReset = true ∧
        (oneHost (.wrReg .cmd (.const w))).resets = []) ∧
    decode (evalExpr 1 [] (.const 0x00000D01)) = .ok (.enc 0b1101#4) ∧
    decode (evalExpr 1 [] (.const 0x00000000)) = .error .badOp :=
  ⟨fun _ => ⟨test_launch_executes _, rfl, rfl⟩, by rfl, by rfl⟩

/-- A halted host, and one that reads. -/
theorem test_witness_OnlyCommandsAndResetsChangeRegisters :
    (∃ t, step (oneHost (.rdReg .res 0)) = .next t) ∧ (oneHost (.rdReg .res 0)).resetNow = .quiet ∧
    (oneHost (.rdReg .res 0)).inFlight = none ∧
    ∀ d, (oneHost (.rdReg .res 0)).drivers[(oneHost (.rdReg .res 0)).turn]? = some d → d.statement ≠ some .rst := by
  refine ⟨⟨_, rfl⟩, rfl, rfl, ?_⟩
  intro d hd
  cases hd
  decide

/-- A step with a host, and one with a command in flight; host 1 is not host 0. -/
theorem test_witness_OneHostMovesAtATime :
    (∃ t, step (oneHost .halt) = .next t) ∧ (1 ≠ (oneHost .halt).turn) ∧
    (∃ t, step (flying 0x00000D01) = .next t) ∧ (flying 0x00000D01).inFlight ≠ none :=
  ⟨⟨_, rfl⟩, by decide, ⟨_, rfl⟩, by decide⟩

/-- V-ILL-06 and V-ILL-11. -/
theorem test_witness_IllegalWordSetsStatOnly :
    (flying 0x00000012).resetNow = .quiet ∧ (flying 0x00000012).inFlight = some 0x00000012 ∧
    legal 0x00000012 = false ∧ legal 0x007F7F02 = false := ⟨rfl, rfl, by decide, by decide⟩

theorem test_witness_DecodesExactlyLegalWords :
    canonical 0b1100000#7 0b0000111#7 = true ∧
    blockOperand 0b1100000#7 0b0000111#7 = blockOperand 0b1100000#7 0b0000111#7 ∧
    (0b0000111#7 : Mask).getLsbD 2 = true := by decide

theorem test_witness_StatusReportsEveryCommand : legal 0x00000D01 = true ∧ legal 0x00001001 = false := by decide

theorem test_witness_CandidatesAreAllFillings : hasErasure (blockOperand 0b1100000#7 0b0000111#7) = true := by decide

theorem test_witness_ResultsDependOnCommandWordAlone : legal 0x00000D01 = true ∧ legal 0x80000001 = false :=
  ⟨by decide, by decide⟩

/-- The largest ENC operand, a block of seven erasures and one of none. -/
theorem test_witness_DecodeOfEncode :
    (Instr.enc 0xF#4).wellFormed = true ∧ (Instr.syn 0#7 0x7F#7).wellFormed = true ∧
    (Instr.dec 0x7F#7 0#7).wellFormed = true := by decide

theorem test_witness_EncodeOfDecode : decode 0x007F0003 = .ok (.dec 0#7 0x7F#7) := by rfl

theorem test_witness_LegalWordsPairWithOperands :
    legal 0x007F0003 = true ∧ opField 0x007F0003 = opDec ∧ legal 0x00007F02 = true ∧ opField 0x00007F02 = opSyn ∧
    6 < 7 := by decide

/-- A line without a comment and one with; the digits of P3's `.cmd 0x00076703` and of a word with letters, in either
case. -/
theorem test_witness_AssemblerSpellsEveryInstruction :
    (Instr.enc 0x8#4).wellFormed = true ∧ (Instr.syn 0b1100100#7 0b0000010#7).wellFormed = true ∧
    (Instr.dec 0#7 0x7F#7).wellFormed = true ∧ isTail [] ∧ isTail [';', ' ', 'x'] ∧
    spellsWord ['0', '0', '0', '7', '6', '7', '0', '3'] 0x00076703 ∧
    spellsWord ['F', 'f', 'A', 'a', '9', '0', 'c', 'D'] 0xFFAA90CD ∧
    assembleLine ['D', 'E', 'C', ' ', '?', '?', '?', '0', '0', '1', '1'] = .ok (some 0x00076003) := by
  refine ⟨by decide, by decide, by decide, .inl rfl, .inr ⟨_, rfl⟩, ⟨rfl, fun k hk => ?_⟩, ⟨rfl, fun k hk => ?_⟩, by rfl⟩ <;>
    interval_cases k <;> first
      | exact ⟨_, rfl, .inl rfl⟩
      | exact ⟨_, rfl, .inr rfl⟩

/-- A line for each clause: bad operands of ENC, DEC and .cmd, another mnemonic, no operand, no word, and a legal line. -/
theorem test_witness_AssemblerRefusesWhatItCannotSpell :
    (lineWords ['E', 'N', 'C', ' ', '1', '0', '1'] = [['E', 'N', 'C'], ['1', '0', '1']] ∧ 3 ≠ 4) ∧
    (lineWords ['D', 'E', 'C', ' ', '0', '1', '1', '0', '0', '1', 'X'] =
        [['D', 'E', 'C'], ['0', '1', '1', '0', '0', '1', 'X']] ∧
      ∃ c ∈ ['0', '1', '1', '0', '0', '1', 'X'], c ≠ '0' ∧ c ≠ '1' ∧ c ≠ '?') ∧
    (lineWords ['.', 'c', 'm', 'd', ' ', '0', 'x', '7'] = [['.', 'c', 'm', 'd'], ['0', 'x', '7']] ∧
      ∀ digits w, spellsWord digits w → ['0', 'x', '7'] ≠ '0' :: 'x' :: digits) ∧
    (lineWords ['N', 'O', 'P'] = [['N', 'O', 'P']] ∧
      ['N', 'O', 'P'] ∉ [['E', 'N', 'C'], ['S', 'Y', 'N'], ['D', 'E', 'C'], ['.', 'c', 'm', 'd']]) ∧
    (lineWords ['S', 'Y', 'N'] = [['S', 'Y', 'N']] ∧ ([] : List (List Char)).length ≠ 1) ∧
    lineWords [' ', ';', 'x'] = [] ∧
    ((lineWords ['E', 'N', 'C', ' ', '1', '0', '1', '1']).head? ≠ some ['.', 'c', 'm', 'd'] ∧
      assembleLine ['E', 'N', 'C', ' ', '1', '0', '1', '1'] = .ok (some 0x00000D01)) := by
  refine ⟨⟨by rfl, by decide⟩, ⟨by rfl, 'X', by decide, by decide, by decide, by decide⟩, ⟨by rfl, ?_⟩,
    ⟨by rfl, by decide⟩, ⟨by rfl, by decide⟩, by rfl, ⟨by decide, by rfl⟩⟩
  intro digits w h he
  cases he
  exact absurd h.1 (by decide)

theorem test_witness_DataBitsAreCoveredByTheirIndex : (3, 7) ∈ [(0, 3), (1, 5), (2, 6), (3, 7)] ∧ 2 < 3 := by decide

theorem test_witness_EncIsPerfectCodeOfDistanceThree : (0x0#4 : BitVec 4) ≠ 0xF#4 ∧ encBits 0#4 = encBits 0#4 :=
  ⟨by decide, rfl⟩

/-- Check 4 at the last position. -/
theorem test_witness_SyndromeIsDeterminedWithoutErasures :
    2 < 3 ∧ 6 < 7 ∧ (0x40#7 : Mask).getLsbD 6 = true ∧ (6 + 1).testBit 2 = true := by decide

theorem test_witness_SyndromeIsLinearAndNamesFlips : 0 < 7 ∧ 6 < 7 ∧ (0 : Nat) ≠ 6 := by decide

/-- A unique match, no match, two matches, all positions erased. -/
theorem test_witness_DecFindsMatchingCodewords :
    (canonical 0b1100000#7 0b0000011#7 = true ∧ (0b0000011#7 : Mask) ≠ 0 ∧
      (matchesOf 0b1100000#7 0b0000011#7).length = 1) ∧
    (canonical 0b1110110#7 0b0000001#7 = true ∧ (0b0000001#7 : Mask) ≠ 0 ∧
      (matchesOf 0b1110110#7 0b0000001#7).length = 0) ∧
    (canonical 0b1100000#7 0b0000111#7 = true ∧ (0b0000111#7 : Mask) ≠ 0 ∧
      (matchesOf 0b1100000#7 0b0000111#7).length = 2) ∧
    (canonical 0#7 0x7F#7 = true ∧ (0x7F#7 : Mask) ≠ 0 ∧ (matchesOf 0#7 0x7F#7).length = 16) := by decide +kernel

/-- One block for each row of the table. -/
theorem test_witness_DecStatusTable :
    (hasErasure (blockOperand 0b1100110#7 0#7) = false ∧
      syndromeNumber (syndrome (blockOperand 0b1100110#7 0#7)) = 0) ∧
    (hasErasure (blockOperand 0b1100111#7 0#7) = false ∧
      syndromeNumber (syndrome (blockOperand 0b1100111#7 0#7)) ≠ 0) ∧
    (hasErasure (blockOperand 0b1100000#7 0b0000011#7) = true ∧
      matching (blockOperand 0b1100000#7 0b0000011#7) = [blockOperand 0b1100001#7 0#7]) ∧
    (hasErasure (blockOperand 0b1110110#7 0b0000001#7) = true ∧
      matching (blockOperand 0b1110110#7 0b0000001#7) = []) ∧
    (hasErasure (blockOperand 0#7 0x7F#7) = true ∧ 2 ≤ (matching (blockOperand 0#7 0x7F#7)).length) := by
  decide +kernel

theorem test_witness_MatchCountFormula :
    canonical 0b1100000#7 0b0000111#7 = true ∧ (0b0000111#7 : Mask) ≠ 0 ∧
    number 0b1100000#7 ∈ spanOf 0b0000111#7 ∧
    canonical 0b1110110#7 0b0000001#7 = true ∧ (0b0000001#7 : Mask) ≠ 0 ∧
    number 0b1110110#7 ∉ spanOf 0b0000001#7 := by decide +kernel

/-- 0, 1, 2, 3 (both kinds), 4 and 7 erasures. -/
theorem test_witness_OutcomesByErasureCount :
    (canonical 0x7F#7 0#7 = true ∧ popcount 0#7 = 0) ∧
    (canonical 0x7E#7 0x01#7 = true ∧ popcount 0x01#7 = 1) ∧
    (canonical 0x7C#7 0x03#7 = true ∧ popcount 0x03#7 = 2) ∧
    (canonical 0x74#7 0x0B#7 = true ∧ popcount 0x0B#7 = 3 ∧ 0x0B#7 ∉ supports) ∧
    (canonical 0x78#7 0x07#7 = true ∧ popcount 0x07#7 = 3 ∧ 0x07#7 ∈ supports) ∧
    (canonical 0x70#7 0x0F#7 = true ∧ 4 ≤ popcount 0x0F#7) ∧
    (canonical 0#7 0x7F#7 = true ∧ 4 ≤ popcount 0x7F#7) := by decide +kernel

/-- The candidates of `???0011` in the reverse order. -/
theorem test_witness_EnumerationOrderIsIrrelevant :
    (candidates (blockOperand 0b1100000#7 0b0000111#7)).reverse.Perm (candidates (blockOperand 0b1100000#7 0b0000111#7)) :=
  List.reverse_perm _

/-- R150's example: positions 0 and 1 erased, position 2 flipped, RESOLVED. -/
theorem test_witness_ErasurePathNeverCorrects :
    (0b0000011#7 : Mask) ≠ 0 ∧ 2 < 7 ∧ (0b0000011#7 : Mask).getLsbD 2 = false ∧
    (regsOf (exec (.dec ((encBits 0b1101#4 ^^^ bitAt 2) &&& ~~~0b0000011#7) 0b0000011#7) State.reset)).map
      (fun r => statCode r.2) = some 4#4 := by decide +kernel

theorem test_witness_TwoFlipsAreMiscorrected : 0 < 7 ∧ 6 < 7 ∧ (0 : Nat) ≠ 6 := by decide

/-- R155's example: NOSOLUTION with the one erasure at position 0. -/
theorem test_witness_UnresolvedBlocksPassThrough :
    canonical 0b1110110#7 0b0000001#7 = true ∧ (0b0000001#7 &&& 0b1110100#7 : Mask) = 0 ∧
    (regsOf (exec (.dec 0b1110110#7 0b0000001#7) State.reset)).map (fun r => statCode r.2) = some 5#4 := by
  decide +kernel

theorem test_witness_DecodingUndoesEncoding : 0 < 7 ∧ 6 < 7 := by decide

/-- The reset state meets the invariant and has a step; so does a state with a command in flight. -/
theorem test_witness_StepKeepsInvariant :
    State.reset.Inv ∧ (∃ t, step State.reset = .next t) ∧ (flying 0x00026402).Inv ∧
    (∃ t, step (flying 0x00026402) = .next t) := by
  have h : ∀ d ∈ [Driver.launch []], varsOk d.vars := by
    intro d hd
    simp only [List.mem_singleton] at hd
    subst hd
    exact List.Pairwise.nil
  exact ⟨⟨fun _ => by decide, fun h => absurd rfl h, h⟩, ⟨_, rfl⟩, ⟨fun _ => by decide, fun _ => rfl, h⟩, ⟨_, rfl⟩⟩

/-- Both sides of the duty: a step that answers, and a host that breaks each duty. -/
theorem test_witness_StepAnswersExactlyUnderDuty :
    stepDuty (oneHost .halt) = true ∧ stepDuty (oneHost (.rd 0x2#4 4 0)) = false ∧
    stepDuty (coldHost (.wrReg .cmd (.const 1))) = false ∧ stepDuty (oneHost (.jmp 7)) = false := by decide

theorem test_witness_HaltedHostDoesNothing :
    (oneHost .halt).Executes (Driver.launch [.halt]) .halt ∧
    ∃ (s : State) (d : Driver), s.resetNow = .quiet ∧ s.inFlight = none ∧ s.drivers[s.turn]? = some d ∧ d.halted = true :=
  ⟨test_launch_executes _,
    { State.reset with drivers := [(Driver.launch [.halt]).stop] }, (Driver.launch [.halt]).stop, rfl, rfl, rfl, rfl⟩

/-- The largest shift the spec gives a result, the top bit of `~`, and a variable that holds a word. -/
theorem test_witness_HostArithmeticIsUnsigned :
    (31#32 : Word).toNat < 32 ∧ 31 < 32 ∧ lookupVar 0 [(0, 0x00000D01#32)] = some 0x00000D01 := by decide

/-- R81's example condition, `(t & 0xF) == 6`, on the STAT of V-DEC-43. -/
theorem test_host_condition :
    evalExpr 0 [(0, 0x00020036)] (.bin .eq (.bin .and (.var 0) (.const 0xF)) (.const 6)) = 1 := by decide

/-- Each of the three statements; a host that has read one word of each kind. -/
theorem test_witness_HostStatementsKeepTheCore (x : Var) (e : Expr) (l : Label) :
    ((oneHost (.set x e)).Executes (Driver.launch [.set x e]) (.set x e) ∧ x + 1 ≠ x) ∧
    (oneHost (.label l)).Executes (Driver.launch [.label l]) (.label l) ∧
    ∀ kind, ∃ (s : State) (d : Driver), s.Executes d (.result kind [0]) ∧ ([0] : List Var)[0]? = some 0 ∧
      lookupVar 0 d.vars = some 0x00010C03 ∧ 6 < 7 ∧ 3 < 4 :=
  ⟨⟨test_launch_executes _, Nat.succ_ne_self x⟩, test_launch_executes _, fun kind =>
    ⟨{ State.reset with drivers := [{ Driver.launch [.result kind [0]] with vars := [(0, 0x00010C03)] }] },
      { Driver.launch [.result kind [0]] with vars := [(0, 0x00010C03)] }, ⟨rfl, rfl, rfl, rfl⟩, rfl, rfl, by decide,
      by decide⟩⟩

/-- A label after the branch, and each of the three clauses. -/
theorem test_witness_BranchesGoToTheirLabel :
    (∀ st, (Driver.launch [st, .label 5]).prog[1]? = some (.label 5) ∧
      (State.launch [st, .label 5]).Executes (Driver.launch [st, .label 5]) st) ∧
    (∀ m, m < 1 → (Driver.launch [Stmt.jmp 5, .label 5]).prog[m]? ≠ some (.label 5)) ∧
    (∀ c m, m < 1 → (Driver.launch [Stmt.br c 5, .label 5]).prog[m]? ≠ some (.label 5)) ∧
    evalExpr 1 [] (.const 1) ≠ 0 ∧ evalExpr 1 [] (.const 0) = 0 := by
  refine ⟨fun _ => ⟨rfl, rfl, rfl, rfl, rfl⟩, ?_, ?_, by decide, by decide⟩
  · intro m hm
    have h0 : m = 0 := by omega
    subst h0
    decide
  · intro c m hm
    have h0 : m = 0 := by omega
    subst h0
    intro h
    cases h

/-- R193's message of 5 bits: the last bit of its second, padded group. -/
theorem test_witness_EncodedStreamLength :
    State.reset.wasReset = true ∧ 1 < ([true, false, true, true, false].length + 3) / 4 ∧ 6 < 7 :=
  ⟨rfl, by decide, by decide⟩

/-- The last symbol of the second of two blocks. -/
theorem test_witness_DecodedStreamLength :
    State.reset.wasReset = true ∧ List.replicate 14 Symbol.erased ≠ [] ∧
    (List.replicate 14 Symbol.erased).length % 7 = 0 ∧ 1 < (List.replicate 14 Symbol.erased).length / 7 ∧ 3 < 4 :=
  ⟨rfl, by decide, by decide, by decide, by decide⟩

/-- V-FRM-07, V-FRM-08, V-FRM-14, V-FRM-17, a received stream one block too short for 5 bits, and a stream DECSTR expands. -/
theorem test_witness_FramerRejections :
    (∃ c ∈ "1012".toList, c ≠ '0' ∧ c ≠ '1') ∧ "".toList.length = 0 ∧ "0110011000".toList.length % 7 ≠ 0 ∧
    ("011001X".toList.length ≠ 0 ∧ "011001X".toList.length % 7 = 0 ∧
      ∃ c ∈ "011001X".toList, c ≠ '0' ∧ c ≠ '1' ∧ c ≠ '?') ∧
    "0110011".toList.length ≠ 7 * ((5 + 3) / 4) ∧
    List.replicate 14 Symbol.erased ≠ [] ∧ (List.replicate 14 Symbol.erased).length % 7 = 0 :=
  ⟨⟨'2', by decide, by decide, by decide⟩, rfl, by decide,
    ⟨by decide, by decide, 'X', by decide, by decide, by decide, by decide⟩, by decide, by decide, by decide⟩

/-- R190 on R193's message: two groups, the second padded with 0. -/
theorem test_encMsg :
    encMsg ['1', '0', '1', '1', '0'] = .ok [.wrReg .cmd (.const 0x00000D01), .rdReg .res 0,
      .wrReg .cmd (.const 0x00000001), .rdReg .res 1, .result .codeword [0, 1]] := by rfl

/-- A NOSOLUTION block, then a clean one. -/
theorem test_witness_BlockFailureIsLocal :
    State.reset.wasReset = true ∧ blockSymbols (blockOperand 0b1110110#7 0b0000001#7) ≠ [] ∧
    blockSymbols (blockOperand 0b1100110#7 0#7) ≠ [] ∧
    (blockSymbols (blockOperand 0b1110110#7 0b0000001#7)).length % 7 = 0 ∧
    (blockSymbols (blockOperand 0b1100110#7 0#7)).length % 7 = 0 := ⟨rfl, by decide, by decide, rfl, rfl⟩

/-- R193's message. -/
theorem test_witness_FramerRoundTrip :
    State.reset.wasReset = true ∧ [true, false, true, true, false] ≠ [] := ⟨rfl, by decide⟩

/-- Two instances; instance 1 takes a step; one schedule and another. -/
theorem test_witness_InstancesShareNothing :
    (∃ q, platformStep 1 [State.reset, flying 0x00000D01] = .next q) ∧ (0 ≠ 1) ∧
    ([State.reset, flying 0x00000D01] : Platform)[1]? = some (flying 0x00000D01) ∧
    [0, 1, 1].Perm [1, 0, 1] ∧ ∃ q, platformRun [0, 1, 1] [State.reset, flying 0x00000D01] = .next q :=
  ⟨⟨_, rfl⟩, by decide, rfl, by decide, _, rfl⟩

/-- Two blocks on two instances, the second block first. -/
theorem test_witness_EveryScheduleGivesTheSameOutput :
    ([Job.mk 1 0, Job.mk 0 1].map Job.block).Perm (List.range ((5 + 3) / 4)) ∧
    ([Job.mk 1 0, Job.mk 0 1].map Job.block).Perm (List.range (14 / 7)) ∧
    (∀ j ∈ [Job.mk 1 0, Job.mk 0 1], ∃ c, ([State.reset, State.reset] : Platform)[j.core]? = some c ∧
      c.wasReset = true) ∧
    List.replicate 14 Symbol.erased ≠ [] ∧ (List.replicate 14 Symbol.erased).length % 7 = 0 := by
  refine ⟨by decide, by decide, ?_, by decide, by decide⟩
  intro j hj
  refine ⟨State.reset, ?_, rfl⟩
  simp only [List.mem_cons, List.not_mem_nil, or_false] at hj
  rcases hj with rfl | rfl <;> rfl

/-- V-FRM-11 with its two blocks on two instances, the second first (R192). -/
theorem test_spread_stream :
    outputOf (decodeStreamOn [⟨1, 0⟩, ⟨0, 1⟩] "0110011???0011".toList [State.reset, State.reset]) =
      some "1011?011".toList := by decide +kernel

end Sys2Proof.Tests
end

section
/-! PROOFS of the obligations of spec/10_state.md: what a command word writes depends on the word alone (R23). -/

namespace Sys2Proof

/-- R74: a block operand decodes exactly when it is canonical. -/
theorem decodeBlock_ok_iff (make : Mask → Mask → Instr) (w : Word) :
    (∃ i, decodeBlock make w = .ok i) ↔ canonical (valField w) (eraField w) = true := by
  unfold decodeBlock
  split <;> simp [*]

/-- R74: the decoder, which tests the conditions in turn, gives an instruction exactly on the words that meet `Legal(w)`. -/
theorem decode_ok_iff_legal (w : Word) : (∃ i, decode w = .ok i) ↔ legal w = true := by
  unfold decode
  by_cases hr : w &&& reservedMask = 0#32
  case neg => simp [legal, hr]
  by_cases he : opField w = opEnc
  case pos =>
    by_cases ho : w.extractLsb' 12 3 = 0#3 ∧ eraField w = 0#7 <;> simp [legal, hr, he, ho, opEnc, opSyn, opDec]
  by_cases hs : opField w = opSyn
  case pos => simp [legal, hr, hs, decodeBlock_ok_iff, opEnc, opSyn, opDec]
  by_cases hd : opField w = opDec
  case pos => simp [legal, hr, hd, decodeBlock_ok_iff, opEnc, opSyn, opDec]
  case neg => simp [legal, hr, he, hs, hd]

end Sys2Proof

namespace Sys2Proof.Machine

/-- R23: a legal word commits the same result from every state. -/
theorem executeWord_of_legal {w : Word} (h : legal w = true) :
    ∃ op val era code pos count, ∀ s : State, executeWord w s = .next (s.commit op val era code pos count) := by
  obtain ⟨i, hi⟩ := (decode_ok_iff_legal w).2 h
  simpa only [executeWord, hi] using exec_eq_commit i

/-- R202: an illegal word is rejected from every state. -/
theorem executeWord_of_illegal {w : Word} (h : legal w = false) (s : State) :
    executeWord w s = .next (s.rejectCommand w) := by
  rcases executeWord_cases w s with ⟨i, hi, -⟩ | ⟨-, -, hx⟩
  · exact absurd ((decode_ok_iff_legal w).1 ⟨i, hi⟩) (by simp [h])
  · exact hx

/-- Settles O17, by cases on legality: a legal word commits one result from both states, an illegal word is rejected from
both. -/
theorem resultsDependOnCommandWordAlone : Obligations.ResultsDependOnCommandWordAlone := by
  unfold Obligations.ResultsDependOnCommandWordAlone
  intro w s s'
  cases h : legal w with
  | true =>
    obtain ⟨op, val, era, code, pos, count, hx⟩ := executeWord_of_legal h
    exact ⟨_, _, hx s, hx s', by simp⟩
  | false => exact ⟨_, _, executeWord_of_illegal h s, executeWord_of_illegal h s', by simp⟩

end Sys2Proof.Machine
end

section
/-! PROOFS of the obligations of spec/30_encoding.md: which words are legal (R74), and that they pair with the well-formed
instructions (R76). -/

namespace Sys2Proof

open Sys2Proof.Machine Sys2Proof.Claims Sys2Proof.Laws.Layout

/-! ## Canonical operands (R74) -/

/-- R74: canonical, position by position. -/
theorem canonical_iff (val era : Mask) :
    canonical val era = true ↔ ∀ i : Nat, era.getLsbD i = true → val.getLsbD i = false := by
  have hand : canonical val era = true ↔ val &&& era = 0 := by simp [canonical]
  rw [hand]
  constructor
  · intro h i he
    have hi : (val &&& era).getLsbD i = false := by simp [h]
    simpa [he] using hi
  · intro h
    apply BitVec.eq_of_getLsbD_eq
    intro i _
    cases he : era.getLsbD i <;> simp [he, h i]

/-- R74: a block has one canonical spelling. -/
theorem canonical_eq_of_blockOperand_eq {val era val' era' : Mask} (h : canonical val era = true)
    (h' : canonical val' era' = true) (hb : blockOperand val era = blockOperand val' era') : val = val' ∧ era = era' := by
  obtain ⟨hv, he⟩ := blockVal_blockOperand val era h
  obtain ⟨hv', he'⟩ := blockVal_blockOperand val' era' h'
  exact ⟨by rw [← hv, hb, hv'], by rw [← he, hb, he']⟩

/-- R72, R76: in a canonical operand a position has one of three spellings, with its meaning. -/
theorem canonical_spelling {val era : Mask} (h : canonical val era = true) (i : Nat) :
    (val.getLsbD i = false ∧ era.getLsbD i = false ∧ operandSymbol val era i = .bit false) ∨
      (val.getLsbD i = true ∧ era.getLsbD i = false ∧ operandSymbol val era i = .bit true) ∨
      (val.getLsbD i = false ∧ era.getLsbD i = true ∧ operandSymbol val era i = .erased) := by
  have hc := (canonical_iff val era).1 h i
  cases he : era.getLsbD i with
  | true => simp [operandSymbol, he, hc he]
  | false => cases hv : val.getLsbD i <;> simp [operandSymbol, he, hv]

/-! ## Legal words (R74) -/

/-- R74: `legal` is the rule's formula, conjunct by conjunct, its implications written as disjunctions. -/
theorem legal_iff_legalWord (w : Word) : legal w = true ↔ LegalWord w := by
  simp [legal, LegalWord, canonical, opField, valField, eraField, opEnc, opSyn, opDec, reservedMask,
    or_assoc, and_assoc, imp_iff_not_or]

/-- Settles O19, from the decoder's domain, the two spellings of `Legal(w)` and the block that a canonical operand
spells. -/
theorem decodesExactlyLegalWords : Obligations.DecodesExactlyLegalWords :=
  ⟨fun w => ⟨(decode_ok_iff_legal w).trans (legal_iff_legalWord w), legal_iff_legalWord w⟩, canonical_iff,
    fun _ _ _ _ => canonical_eq_of_blockOperand_eq⟩

/-! ## The decoder and the encoder are inverse (R76) -/

/-- R70: a word whose reserved bits are 0 is put together from its fields. -/
theorem commandWord_fields {w : Word} (h : w &&& reservedMask = 0#32) :
    commandWord (opField w) (valField w) (eraField w) = w := by
  apply BitVec.eq_of_getLsbD_eq
  intro i hi
  have hr : (w.getLsbD i && reservedMask.getLsbD i) = false := by rw [← BitVec.getLsbD_and, h]; simp
  rw [reservedMask_bits i hi] at hr
  simp only [commandWord, opField, valField, eraField, BitVec.getLsbD_append, BitVec.getLsbD_extractLsb']
  interval_cases i <;> simp_all

/-- R73: VAL is bits [14:12] of the word above the nibble in bits [11:8]. -/
theorem valField_eq_append_iff (w : Word) (hi : BitVec 3) (d : BitVec 4) :
    valField w = hi ++ d ↔ w.extractLsb' 12 3 = hi ∧ w.extractLsb' 8 4 = d := by
  have hval : valField w = w.extractLsb' 12 3 ++ w.extractLsb' 8 4 :=
    (BitVec.extractLsb'_append_extractLsb'_eq_extractLsb' (len₁ := 4) (len₂ := 3) rfl).symm
  rw [hval]
  constructor
  · intro h
    have hleft := congrArg (BitVec.extractLsb' 4 3) h
    have hright := congrArg (BitVec.extractLsb' 0 4) h
    exact ⟨BitVec.extractLsb'_append_eq_left.symm.trans (hleft.trans BitVec.extractLsb'_append_eq_left),
      BitVec.extractLsb'_append_eq_right.symm.trans (hright.trans BitVec.extractLsb'_append_eq_right)⟩
  · rintro ⟨rfl, rfl⟩
    rfl

/-- R74: what a block operand decodes to. -/
theorem decodeBlock_eq_ok_iff (make : Mask → Mask → Instr) (w : Word) (i : Instr) :
    decodeBlock make w = .ok i ↔
      canonical (valField w) (eraField w) = true ∧ make (valField w) (eraField w) = i := by
  unfold decodeBlock
  split <;> simp [*]

/-- Everything a decoded word says: its reserved bits are 0, and each operation has its operand. -/
theorem decode_cases {w : Word} {i : Instr} (h : decode w = .ok i) :
    w &&& reservedMask = 0#32 ∧
      ((opField w = opEnc ∧ w.extractLsb' 12 3 = 0#3 ∧ eraField w = 0#7 ∧ i = .enc (w.extractLsb' 8 4)) ∨
        (opField w = opSyn ∧ canonical (valField w) (eraField w) = true ∧ i = .syn (valField w) (eraField w)) ∨
        (opField w = opDec ∧ canonical (valField w) (eraField w) = true ∧ i = .dec (valField w) (eraField w))) := by
  unfold decode at h
  split at h
  case isTrue => cases h
  case isFalse hr =>
    refine ⟨not_not.1 hr, ?_⟩
    split at h
    case isTrue hop =>
      split at h
      case isTrue hw =>
        cases h
        exact .inl ⟨hop, hw.1, hw.2, rfl⟩
      case isFalse => cases h
    case isFalse =>
      split at h
      case isTrue hop =>
        obtain ⟨hc, hi⟩ := (decodeBlock_eq_ok_iff _ _ _).1 h
        exact .inr (.inl ⟨hop, hc, hi.symm⟩)
      case isFalse =>
        split at h
        case isTrue hop =>
          obtain ⟨hc, hi⟩ := (decodeBlock_eq_ok_iff _ _ _).1 h
          exact .inr (.inr ⟨hop, hc, hi.symm⟩)
        case isFalse => cases h

/-- R76: a word that decodes is the word of its instruction. -/
theorem encode_decode {w : Word} {i : Instr} (h : decode w = .ok i) : i.wellFormed = true ∧ encode i = w := by
  obtain ⟨hr, hcase⟩ := decode_cases h
  have hw := commandWord_fields hr
  rcases hcase with ⟨hop, hhi, he, rfl⟩ | ⟨hop, hc, rfl⟩ | ⟨hop, hc, rfl⟩
  · rw [hop, (valField_eq_append_iff w _ _).2 ⟨hhi, rfl⟩, he] at hw
    exact ⟨rfl, hw⟩
  · rw [hop] at hw
    exact ⟨hc, hw⟩
  · rw [hop] at hw
    exact ⟨hc, hw⟩

/-- R76: the word of a well-formed instruction decodes to that instruction. -/
theorem decode_encode {i : Instr} (h : i.wellFormed = true) : decode (encode i) = .ok i := by
  cases i with
  | enc d =>
    obtain ⟨hhi, hd⟩ := (valField_eq_append_iff _ 0#3 d).1 (valField_commandWord opEnc (0#3 ++ d) 0#7)
    simp [decode, encode, commandWord_reserved, hhi, hd]
  | syn val era =>
    have hc : canonical val era = true := h
    simp [decode, encode, decodeBlock, hc, commandWord_reserved, opEnc, opSyn]
  | dec val era =>
    have hc : canonical val era = true := h
    simp [decode, encode, decodeBlock, hc, commandWord_reserved, opEnc, opSyn, opDec]

/-- R76: the word of a well-formed instruction is legal. -/
theorem legal_encode {i : Instr} (h : i.wellFormed = true) : legal (encode i) = true :=
  (decode_ok_iff_legal _).1 ⟨i, decode_encode h⟩

/-- R76: two well-formed instructions have two words. -/
theorem encode_injOn_wellFormed {i j : Instr} (hi : i.wellFormed = true) (hj : j.wellFormed = true)
    (h : encode i = encode j) : i = j := by
  have hd := decode_encode hi
  rw [h, decode_encode hj] at hd
  cases hd
  rfl

/-- R71: the OP field of an instruction's word. -/
theorem opField_encode (i : Instr) : opField (encode i) = opcode i := by
  cases i <;> exact opField_commandWord _ _ _

/-! ## Canonical operands spell blocks one to one (R72, R76) -/

/-- Flag `i` of a seven-bit field is bit `i`. -/
theorem getLsbD_mask7 (b0 b1 b2 b3 b4 b5 b6 : Bool) {i : Nat} (hi : i < 7) :
    (mask7 b0 b1 b2 b3 b4 b5 b6).getLsbD i = [b0, b1, b2, b3, b4, b5, b6][i] := by
  simp only [mask7, flag, BitVec.getLsbD_append]
  interval_cases i <;> simp

theorem getLsbD_blockVal (b : Block) {i : Nat} (hi : i < 7) :
    (blockVal b).getLsbD i = isOne (blockSymbols b)[i] :=
  (getLsbD_mask7 _ _ _ _ _ _ _ hi).trans (List.getElem_map (l := blockSymbols b) (h := hi) isOne)

theorem getLsbD_blockEra (b : Block) {i : Nat} (hi : i < 7) :
    (blockEra b).getLsbD i = isErased (blockSymbols b)[i] :=
  (getLsbD_mask7 _ _ _ _ _ _ _ hi).trans (List.getElem_map (l := blockSymbols b) (h := hi) isErased)

/-- R78: position `i` of a block's spelling spells its symbol. -/
theorem operandSymbol_spelling (b : Block) {i : Nat} (hi : i < 7) :
    operandSymbol (blockVal b) (blockEra b) i = (blockSymbols b)[i] := by
  rw [operandSymbol, getLsbD_blockVal b hi, getLsbD_blockEra b hi]
  cases (blockSymbols b)[i] <;> rfl

/-- R78: every block is the block of its spelling. -/
theorem blockOperand_spelling (b : Block) : blockOperand (blockVal b) (blockEra b) = b := by
  simp [blockOperand, operandSymbol_spelling, blockSymbols]

/-- R74, R78: the spelling of a block is canonical, since no symbol is both 1 and `?`. -/
theorem canonical_spelling_block (b : Block) : canonical (blockVal b) (blockEra b) = true := by
  rw [canonical_iff]
  intro i he
  have hi : i < 7 := BitVec.lt_of_getLsbD he
  rw [getLsbD_blockEra b hi] at he
  rw [getLsbD_blockVal b hi]
  cases hx : (blockSymbols b)[i] <;> simp_all [isErased, isOne]

/-- R72: a block operand is canonical exactly when it is the spelling of a block. -/
theorem canonical_iff_spelling (val era : Mask) :
    canonical val era = true ↔ ∃ b, blockVal b = val ∧ blockEra b = era := by
  constructor
  · intro h
    exact ⟨blockOperand val era, blockVal_blockOperand val era h⟩
  · rintro ⟨b, rfl, rfl⟩
    exact canonical_spelling_block b

/-- R30: a symbol is a bit or `?`. -/
def symbolEquiv : Symbol ≃ Option Bool where
  toFun
    | .bit b => some b
    | .erased => none
  invFun
    | some b => .bit b
    | none => .erased
  left_inv x := by cases x <;> rfl
  right_inv x := by cases x <;> rfl

/-- R31: a block is its seven symbols. -/
def blockEquiv : Block ≃ Symbol × Symbol × Symbol × Symbol × Symbol × Symbol × Symbol where
  toFun b := (b.p1, b.p2, b.d1, b.p4, b.d2, b.d3, b.d4)
  invFun := fun (p1, p2, d1, p4, d2, d3, d4) => ⟨p1, p2, d1, p4, d2, d3, d4⟩
  left_inv _ := rfl
  right_inv _ := rfl

theorem card_symbol : Nat.card Symbol = 3 := by
  simp [Nat.card_congr symbolEquiv]

theorem card_block : Nat.card Block = 2187 := by
  simp [Nat.card_congr blockEquiv, Nat.card_prod, card_symbol]

/-! ## Counting the legal words (R76) -/

/-- R76: the legal words of an opcode are as many as its well-formed instructions, which `f` lists. -/
theorem card_legalWords {α : Type} {op : BitVec 4} {f : α → Instr} (hinj : Function.Injective f)
    (hf : ∀ i, i.wellFormed = true ∧ opcode i = op ↔ i ∈ Set.range f) :
    Nat.card { w : Word // legal w = true ∧ opField w = op } = Nat.card α := by
  have hwf (a : α) : (f a).wellFormed = true ∧ opcode (f a) = op := (hf _).2 ⟨a, rfl⟩
  have hset : { w : Word | legal w = true ∧ opField w = op } = Set.range (encode ∘ f) := by
    ext w
    constructor
    · rintro ⟨hl, hop⟩
      obtain ⟨i, hi⟩ := (decode_ok_iff_legal w).2 hl
      obtain ⟨hwf, rfl⟩ := encode_decode hi
      rw [opField_encode] at hop
      obtain ⟨a, rfl⟩ := (hf i).1 ⟨hwf, hop⟩
      exact ⟨a, rfl⟩
    · rintro ⟨a, rfl⟩
      exact ⟨legal_encode (hwf a).1, (opField_encode _).trans (hwf a).2⟩
  have hinj' : Function.Injective (encode ∘ f) := fun a b h =>
    hinj (encode_injOn_wellFormed (hwf a).1 (hwf b).1 h)
  calc Nat.card { w : Word // legal w = true ∧ opField w = op }
      = Nat.card (Set.range (encode ∘ f)) := by rw [← hset]; rfl
    _ = Nat.card α := Nat.card_range_of_injective hinj'

theorem card_encOperand : Nat.card (BitVec 4) = 16 :=
  (Nat.card_congr BitVec.equivFin.toEquiv).trans (Nat.card_fin _)

/-- R73: the ENC instructions by their nibble. -/
theorem wellFormed_enc_iff (i : Instr) : i.wellFormed = true ∧ opcode i = opEnc ↔ i ∈ Set.range Instr.enc := by
  cases i <;> simp [Instr.wellFormed, opcode, opEnc]

/-- The instruction with a block operand, by the block it spells. -/
def ofBlock (make : Mask → Mask → Instr) (b : Block) : Instr := make (blockVal b) (blockEra b)

/-- R72: the SYN instructions by their block. -/
theorem wellFormed_syn_iff (i : Instr) :
    i.wellFormed = true ∧ opcode i = opSyn ↔ i ∈ Set.range (ofBlock .syn) := by
  cases i <;> simp [Instr.wellFormed, opcode, opSyn, ofBlock, canonical_iff_spelling]

/-- R72: the DEC instructions by their block. -/
theorem wellFormed_dec_iff (i : Instr) :
    i.wellFormed = true ∧ opcode i = opDec ↔ i ∈ Set.range (ofBlock .dec) := by
  cases i <;> simp [Instr.wellFormed, opcode, opDec, ofBlock, canonical_iff_spelling]

/-- R76: instructions of one operation with different blocks differ. -/
theorem ofBlock_injective {make : Mask → Mask → Instr}
    (hmake : ∀ v e v' e', make v e = make v' e' → v = v' ∧ e = e') : Function.Injective (ofBlock make) := by
  intro b b' h
  obtain ⟨hv, he⟩ := hmake _ _ _ _ h
  rw [← blockOperand_spelling b, hv, he, blockOperand_spelling]

/-- R74: a legal SYN or DEC word has a canonical operand. -/
theorem canonical_of_legal {w : Word} (hl : legal w = true) (hop : opField w = opSyn ∨ opField w = opDec) :
    canonical (valField w) (eraField w) = true := by
  obtain ⟨-, -, -, hc⟩ := (legal_iff_legalWord w).1 hl
  exact beq_iff_eq.2 (hc hop)

/-- Settles O22: the decoder and the encoder are inverse on well-formed instructions and legal words, and the legal words
of an operation are counted by its operands, the nibbles for ENC and the blocks for SYN and DEC. -/
theorem legalWordsPairWithOperands : Obligations.LegalWordsPairWithOperands := by
  unfold Obligations.LegalWordsPairWithOperands
  refine ⟨fun i hi => ?unique_word, fun w hw => ?unique_instr, ?enc, ?syn, ?dec, fun w hl hop i _ => ?spelling⟩
  case unique_word =>
    exact ⟨encode i, ⟨legal_encode hi, decode_encode hi⟩, fun w hw => (encode_decode hw.2).2.symm⟩
  case unique_instr =>
    obtain ⟨i, hi⟩ := (decode_ok_iff_legal w).2 hw
    exact ⟨i, hi, fun j hj => Except.ok.inj (hj.symm.trans hi)⟩
  case enc => exact (card_legalWords (fun _ _ => Instr.enc.inj) wellFormed_enc_iff).trans card_encOperand
  case syn =>
    exact (card_legalWords (ofBlock_injective fun _ _ _ _ => Instr.syn.inj) wellFormed_syn_iff).trans card_block
  case dec =>
    exact (card_legalWords (ofBlock_injective fun _ _ _ _ => Instr.dec.inj) wellFormed_dec_iff).trans card_block
  case spelling => exact canonical_spelling (canonical_of_legal hl hop) i

end Sys2Proof
end

section
/-! PROOFS of the obligations of spec/41_encode.md: what ENC writes (R101 to R104, R107), and the properties of its code
(R106). -/

namespace Sys2Proof.Machine

open Sys2Proof.Claims

/-! ## The codeword, bit by bit (R101, R102, R107) -/

/-- R100, R103: ENC commits the codeword with no erased position and code DONE. -/
theorem exec_enc (d : BitVec 4) (s : State) : exec (.enc d) s = .next (s.commit opEnc (encBits d) 0 .done 0 0) := rfl

/-- R101, R102: position `i` of the codeword. -/
theorem getLsbD_encBits (d : BitVec 4) {i : Nat} (hi : i < 7) :
    (encBits d).getLsbD i =
      [d.getLsbD 0 ^^ d.getLsbD 1 ^^ d.getLsbD 3, d.getLsbD 0 ^^ d.getLsbD 2 ^^ d.getLsbD 3, d.getLsbD 0,
        d.getLsbD 1 ^^ d.getLsbD 2 ^^ d.getLsbD 3, d.getLsbD 1, d.getLsbD 2, d.getLsbD 3][i] :=
  getLsbD_mask7 _ _ _ _ _ _ _ hi

/-- Settles O27: RES.VAL is the committed codeword, read bit by bit. -/
theorem encLaysOutParityAndData : Obligations.EncLaysOutParityAndData := by
  unfold Obligations.EncLaysOutParityAndData
  intro d s
  refine ⟨_, exec_enc d s, ?_⟩
  simp [getLsbD_encBits, -BitVec.getLsbD_eq_getElem]

/-- R100: the STAT word of a completed ENC. -/
theorem packStat_enc_done : packStat 0 0 opEnc (codeBits .done) = 0x00000011#32 := by decide

/-- Settles O28: the committed RES is the layout of R25 around the codeword, the committed STAT is 0x0000_0011. -/
theorem encWritesResAndStat : Obligations.EncWritesResAndStat := by
  unfold Obligations.EncWritesResAndStat
  intro d s
  rw [exec_enc, State.commit, packStat_enc_done]
  rfl

/-! ## The code is systematic (R107) -/

/-- R73, R78: the field that spells a nibble denotes it. -/
@[simp] theorem nibbleOperand_nibbleField (n : Nibble) : nibbleOperand (nibbleField n) = n := by
  obtain ⟨d1, d2, d3, d4⟩ := n
  revert d1 d2 d3 d4
  decide

/-- R73, R78: a nibble operand is the field that spells its nibble. -/
@[simp] theorem nibbleField_nibbleOperand : ∀ d : BitVec 4, nibbleField (nibbleOperand d) = d := by decide

/-- The nibble at the data positions of a word (R107). -/
def dataNibble (w : Mask) : Nibble :=
  { d1 := w.getLsbD 2, d2 := w.getLsbD 4, d3 := w.getLsbD 5, d4 := w.getLsbD 6 }

/-- R107: the data positions of a codeword hold the nibble it encodes. -/
@[simp] theorem dataNibble_encBits (d : BitVec 4) : dataNibble (encBits d) = nibbleOperand d := by
  simp [dataNibble, nibbleOperand, getLsbD_encBits, -BitVec.getLsbD_eq_getElem]

/-- R106: the nibble can be read back from its codeword, so ENC is one to one. -/
theorem encBits_injective : Function.Injective encBits :=
  Function.LeftInverse.injective (g := fun w => nibbleField (dataNibble w)) fun d => by simp

/-! ## ENC is linear (R104, R106) -/

/-- R106: every position of the codeword is an XOR of nibble bits, so ENC is linear over GF(2). -/
theorem encBits_xor (a b : BitVec 4) : encBits (a ^^^ b) = encBits a ^^^ encBits b := by
  apply BitVec.eq_of_getLsbD_eq
  intro i hi
  rw [BitVec.getLsbD_xor, getLsbD_encBits _ hi, getLsbD_encBits _ hi, getLsbD_encBits _ hi]
  interval_cases i <;> simp [Bool.xor_left_comm]

/-- R104: the codeword of a nibble with one data bit set, which lies at index `h`, has the parity bits that cover `h` and
no other data bit. -/
theorem encBits_single : ∀ p ∈ [(0, 3), (1, 5), (2, 6), (3, 7)],
    (∀ k < 3, (encBits (1#4 <<< p.1)).getLsbD (2 ^ k - 1) = p.2.testBit k) ∧
      encBits (1#4 <<< p.1) &&& 0b1110100#7 = bitAt (p.2 - 1) := by decide

/-- Settles O29: by linearity, a flip of data bit `j` changes the codeword by the codeword of that bit alone. -/
theorem dataBitsAreCoveredByTheirIndex : Obligations.DataBitsAreCoveredByTheirIndex := by
  unfold Obligations.DataBitsAreCoveredByTheirIndex
  intro d j k h hj hk
  have hflip : encBits (d ^^^ 1#4 <<< j) ^^^ encBits d = encBits (1#4 <<< j) := by
    rw [encBits_xor, BitVec.xor_comm (encBits d), BitVec.xor_assoc, BitVec.xor_self, BitVec.xor_zero]
  obtain ⟨hcover, hdata⟩ := encBits_single (j, h) hj
  rw [hflip]
  exact ⟨hcover k hk, hdata⟩

/-! ## Weights and distances (R106) -/

/-- R11: the number of 1 bits is the size of the set of their positions. -/
theorem popcount_eq_card (m : Mask) : popcount m = ((Finset.range 7).filter fun i => m.getLsbD i = true).card := by
  simp [popcount, Finset.card_def, Finset.filter_val, Finset.range_val, Multiset.range]

/-- A position where two fields differ is 1 in one of them. -/
theorem popcount_xor_le (a b : Mask) : popcount (a ^^^ b) ≤ popcount a + popcount b := by
  simp only [popcount_eq_card]
  refine le_trans (Finset.card_le_card fun i hi => ?_) (Finset.card_union_le _ _)
  simp only [Finset.mem_filter, Finset.mem_union, BitVec.getLsbD_xor] at hi ⊢
  grind

/-- R106: the weights of the 16 codewords, sorted. -/
theorem weights_perm : ((List.range 16).map fun a => popcount (encBits (BitVec.ofNat 4 a))).Perm
    (List.replicate 1 0 ++ List.replicate 7 3 ++ List.replicate 7 4 ++ List.replicate 1 7) := by decide

/-- R106: how many codewords have weight `n`. -/
theorem weight_distribution (n : Nat) :
    ((List.range 16).filter fun a => popcount (encBits (BitVec.ofNat 4 a)) == n).length =
      if n = 0 then 1 else if n = 3 then 7 else if n = 4 then 7 else if n = 7 then 1 else 0 := by
  calc ((List.range 16).filter fun a => popcount (encBits (BitVec.ofNat 4 a)) == n).length
      = ((List.range 16).map fun a => popcount (encBits (BitVec.ofNat 4 a))).count n := by
        rw [← List.countP_eq_length_filter, List.count, List.countP_map]
        rfl
    _ = (List.replicate 1 0 ++ List.replicate 7 3 ++ List.replicate 7 4 ++ List.replicate 1 7).count n :=
        weights_perm.count_eq n
    _ = _ := by
        simp only [List.count_append, List.count_replicate, beq_iff_eq, eq_comm (b := n)]
        split_ifs <;> omega

/-- R106: a codeword other than 0 has weight at least 3. -/
theorem three_le_popcount_encBits : ∀ a : BitVec 4, a ≠ 0 → 3 ≤ popcount (encBits a) := by decide

/-- R106: by linearity the distance of two codewords is the weight of a third. -/
theorem three_le_distance {a b : BitVec 4} (h : a ≠ b) : 3 ≤ popcount (encBits a ^^^ encBits b) := by
  rw [← encBits_xor]
  exact three_le_popcount_encBits _ fun h0 => h (BitVec.xor_eq_zero_iff.1 h0)

/-- R106: the weight-3 codewords are those of the seven supports. -/
theorem weight_three_iff_mem_supports (w : Mask) : (popcount w = 3 ∧ ∃ a, encBits a = w) ↔ w ∈ supports := by
  have hto : ∀ a, popcount (encBits a) = 3 → encBits a ∈ supports := by decide
  have hfrom : ∀ w ∈ supports, popcount w = 3 ∧ ∃ a, encBits a = w := by decide
  constructor
  · rintro ⟨h, a, rfl⟩
    exact hto a h
  · exact hfrom w

/-! ## The code is perfect (R106) -/

/-- R107: a word and the codeword of its data differ in parity positions only. -/
theorem encBits_dataNibble_data (w : Mask) : (encBits (nibbleField (dataNibble w)) ^^^ w) &&& 0b1110100#7 = 0 := by
  apply BitVec.eq_of_getLsbD_eq
  intro i hi
  rw [BitVec.getLsbD_and, BitVec.getLsbD_xor, encBits, nibbleOperand_nibbleField, getLsbD_blockVal _ hi]
  interval_cases i <;> simp [dataNibble, codeword, blockSymbols, isOne]

/-- A word of parity bits alone is within distance 1 of a codeword: with at most one of them it is near 0, with two near
the codeword of the data bit they cover, with three near that of d4. -/
theorem exists_near_parity : ∀ r : Mask, r &&& 0b1110100#7 = 0 → ∃ a, popcount (encBits a ^^^ r) ≤ 1 := by decide

/-- R106: a codeword within distance 1, from the codeword of the word's data and one near the parity bits in which they
differ. -/
theorem exists_near_codeword (w : Mask) : ∃ a, popcount (encBits a ^^^ w) ≤ 1 := by
  obtain ⟨a, ha⟩ := exists_near_parity _ (encBits_dataNibble_data w)
  refine ⟨a ^^^ nibbleField (dataNibble w), ?_⟩
  rwa [encBits_xor, BitVec.xor_assoc]

/-- R106: two codewords within distance 1 of a word are at distance at most 2, so they are one. -/
theorem eq_of_near {a b : BitVec 4} {w : Mask} (ha : popcount (encBits a ^^^ w) ≤ 1)
    (hb : popcount (encBits b ^^^ w) ≤ 1) : a = b := by
  by_contra hne
  have hfar := three_le_distance hne
  have hnear := popcount_xor_le (encBits a ^^^ w) (encBits b ^^^ w)
  have hcancel : (encBits a ^^^ w) ^^^ (encBits b ^^^ w) = encBits a ^^^ encBits b := by
    rw [BitVec.xor_comm (encBits b), BitVec.xor_assoc, ← BitVec.xor_assoc w, BitVec.xor_self, BitVec.zero_xor]
  rw [hcancel] at hnear
  omega

/-- Settles O30, from linearity, the weights of the 16 codewords and the nearest codeword of a word. -/
theorem encIsPerfectCodeOfDistanceThree : Obligations.EncIsPerfectCodeOfDistanceThree := by
  unfold Obligations.EncIsPerfectCodeOfDistanceThree
  refine ⟨encBits_xor, fun _ _ h => encBits_injective h, weight_distribution, fun _ _ => three_le_distance,
    ⟨0, 1, by decide⟩, weight_three_iff_mem_supports, fun w => ?perfect⟩
  case perfect =>
    obtain ⟨a, ha⟩ := exists_near_codeword w
    exact ⟨a, ha, fun b hb => eq_of_near hb ha⟩

end Sys2Proof.Machine
end

section
/-! PROOFS of the obligations of spec/42_syndrome.md: what SYN reports (R121 to R123, R127), where it is determined (R125),
which blocks have syndrome (0,0,0) (R126), and what flips do to it (R128). -/

namespace Sys2Proof.Machine

open Sys2Proof.Claims

/-! ## The positions a check covers (R121) -/

/-- R121: the 0-based positions `Cover(k)`. -/
def Check.cover : Check → List Nat
  | .s1 => [0, 2, 4, 6]
  | .s2 => [1, 2, 5, 6]
  | .s4 => [3, 4, 5, 6]

/-- R121: `Cover(k)` as a field. -/
def Check.coverMask : Check → Mask
  | .s1 => 0b1010101#7
  | .s2 => 0b1100110#7
  | .s4 => 0b1111000#7

/-- R127: the bit of RES.VAL and RES.ERA that reports the check, whose weight is `k = 2 ^ bit`. -/
def Check.bit : Check → Nat
  | .s1 => 0
  | .s2 => 1
  | .s4 => 2

theorem covered_blockOperand (v e : Mask) (k : Check) :
    covered (blockOperand v e) k = k.cover.map (operandSymbol v e) := by
  cases k <;> rfl

theorem Check.lt_of_mem_cover {k : Check} : ∀ i ∈ k.cover, i < 7 := by
  cases k <;> decide

/-- R121: a check covers the positions whose Hamming index has the bit of its weight set. -/
theorem Check.mem_cover_iff (k : Check) (i : Nat) : i ∈ k.cover ↔ i < 7 ∧ (i + 1).testBit k.bit = true := by
  have hpos : ∀ i < 7, i ∈ k.cover ↔ (i + 1).testBit k.bit = true := by cases k <;> decide
  constructor
  · intro h
    have hi := lt_of_mem_cover i h
    exact ⟨hi, (hpos i hi).1 h⟩
  · rintro ⟨hi, h⟩
    exact (hpos i hi).2 h

theorem Check.getLsbD_coverMask (k : Check) (i : Nat) : k.coverMask.getLsbD i = true ↔ i ∈ k.cover := by
  have hpos : ∀ i < 7, k.coverMask.getLsbD i = true ↔ i ∈ k.cover := by cases k <;> decide
  exact ⟨fun h => (hpos i (BitVec.lt_of_getLsbD h)).1 h, fun h => (hpos i (lt_of_mem_cover i h)).2 h⟩

/-- R122: no covered position is set exactly when the field has no bit in common with the cover. -/
theorem Check.any_cover (k : Check) (e : Mask) : k.cover.any e.getLsbD = (e &&& k.coverMask != 0) := by
  have hzero : e &&& k.coverMask = 0 ↔ ∀ i ∈ k.cover, e.getLsbD i = false := by
    have hdisjoint := canonical_iff e k.coverMask
    simpa only [canonical, beq_iff_eq, k.getLsbD_coverMask] using hdisjoint
  rw [Bool.eq_iff_iff, bne_iff_ne, ne_eq, hzero]
  simp

/-! ## The components of a syndrome (R122) -/

/-- The XOR of the bits of a field at the listed positions. -/
def parityAt (v : Mask) : List Nat → Bool
  | [] => false
  | i :: rest => v.getLsbD i ^^ parityAt v rest

theorem parityAt_cover_s1 (v : Mask) : parityAt v Check.s1.cover = check1 v := by
  simp [parityAt, Check.cover, check1]

theorem parityAt_cover_s2 (v : Mask) : parityAt v Check.s2.cover = check2 v := by
  simp [parityAt, Check.cover, check2]

theorem parityAt_cover_s4 (v : Mask) : parityAt v Check.s4.cover = check4 v := by
  simp [parityAt, Check.cover, check4]

/-- R122: the symbols of an operand at some positions have a value where none of them is erased, the XOR of their bits. -/
theorem xorOfBits_operandSymbols (v e : Mask) (ps : List Nat) :
    xorOfBits (ps.map (operandSymbol v e)) = if ps.any e.getLsbD then none else some (parityAt v ps) := by
  induction ps with
  | nil => rfl
  | cons i rest ih =>
    rw [List.map_cons, List.any_cons, operandSymbol]
    cases e.getLsbD i with
    | true => rfl
    | false =>
      rw [if_neg Bool.false_ne_true, xorOfBits, ih, Bool.false_or]
      cases rest.any e.getLsbD <;> rfl

/-- R122: a check is indeterminate where a covered position is erased, and the XOR of the covered bits otherwise. -/
theorem checkValue_blockOperand (v e : Mask) (k : Check) :
    checkValue (blockOperand v e) k = if k.cover.any e.getLsbD then none else some (parityAt v k.cover) := by
  rw [checkValue, covered_blockOperand, xorOfBits_operandSymbols]

theorem componentOne_checkValue (v e : Mask) (k : Check) :
    componentOne (checkValue (blockOperand v e) k) = (e &&& k.coverMask == 0 && parityAt v k.cover) := by
  rw [checkValue_blockOperand, k.any_cover, bne]
  cases e &&& k.coverMask == 0 <;> rfl

theorem componentUnknown_checkValue (v e : Mask) (k : Check) :
    componentUnknown (checkValue (blockOperand v e) k) = k.cover.any e.getLsbD := by
  rw [checkValue_blockOperand]
  cases k.cover.any e.getLsbD <;> rfl

/-! ## What SYN writes (R127) -/

/-- R120, R127: SYN commits the value bits and the indeterminate flags with code DONE. -/
theorem exec_syn (v e : Mask) (s : State) :
    exec (.syn v e) s = .next (s.commit opSyn (synVal (syndrome (blockOperand v e)))
      (synEra (syndrome (blockOperand v e))) .done 0 0) := rfl

/-- R120: the STAT word of a completed SYN. -/
theorem packStat_syn_done : packStat 0 0 opSyn (codeBits .done) = 0x00000021#32 := by decide

/-- R127: three flags in the low bits of a field. -/
theorem mask7_low (a b c : Bool) :
    mask7 a b c false false false false = 0#4 ++ BitVec.ofBool c ++ BitVec.ofBool b ++ BitVec.ofBool a := by
  cases a <;> cases b <;> cases c <;> rfl

/-- R123: three flags in the low bits of a field, as a number. -/
theorem toNat_mask7_low (a b c : Bool) :
    (mask7 a b c false false false false).toNat = 4 * c.toNat + 2 * b.toNat + a.toNat := by
  cases a <;> cases b <;> cases c <;> rfl

theorem mask7_low_eq_zero_iff (a b c : Bool) :
    mask7 a b c false false false false = 0#7 ↔ a = false ∧ b = false ∧ c = false := by
  revert a b c
  decide

/-- R122, R127: the value bits of SYN. -/
theorem synVal_blockOperand (v e : Mask) :
    synVal (syndrome (blockOperand v e)) =
      mask7 (e &&& 0b1010101#7 == 0 && check1 v) (e &&& 0b1100110#7 == 0 && check2 v)
        (e &&& 0b1111000#7 == 0 && check4 v) false false false false := by
  simp only [synVal, syndrome, componentOne_checkValue, parityAt_cover_s1, parityAt_cover_s2, parityAt_cover_s4,
    Check.coverMask]

/-- R122, R127: the indeterminate flags of SYN. -/
theorem synEra_blockOperand (v e : Mask) :
    synEra (syndrome (blockOperand v e)) =
      mask7 (e &&& 0b1010101#7 != 0) (e &&& 0b1100110#7 != 0) (e &&& 0b1111000#7 != 0) false false false false := by
  simp only [synEra, syndrome, componentUnknown_checkValue, Check.any_cover, Check.coverMask]

/-- R123: without erasures the value bits are the three checks. -/
theorem synVal_of_no_erasure (v : Mask) :
    synVal (syndrome (blockOperand v 0)) = mask7 (check1 v) (check2 v) (check4 v) false false false false := by
  simp [synVal_blockOperand]

theorem synEra_of_no_erasure (v : Mask) : synEra (syndrome (blockOperand v 0)) = 0 := by
  simp [synEra_blockOperand, mask7_low_eq_zero_iff]

/-- Settles O31: the committed fields, component by component. -/
theorem synReportsSyndrome : Obligations.SynReportsSyndrome := by
  unfold Obligations.SynReportsSyndrome
  refine ⟨fun v e s => ?exact_state, fun v s => ⟨_, exec_syn v 0 s, ?determined, ?number⟩⟩
  case exact_state =>
    rw [exec_syn, State.commit, packStat_syn_done, synVal_blockOperand, synEra_blockOperand, mask7_low, mask7_low]
    rfl
  case determined => rw [State.commit_res, resEra_packRes, synEra_of_no_erasure]
  case number => rw [State.commit_res, resVal_packRes, synVal_of_no_erasure, toNat_mask7_low]

/-! ## Where a syndrome is determined (R125) -/

/-- R125, R127: a check's flag is set exactly where an erased position has the bit of its weight in its Hamming index. -/
theorem getLsbD_synEra_iff (v e : Mask) (k : Check) :
    (synEra (syndrome (blockOperand v e))).getLsbD k.bit = true ↔
      ∃ i, i < 7 ∧ e.getLsbD i = true ∧ (i + 1).testBit k.bit = true := by
  have hbit : (synEra (syndrome (blockOperand v e))).getLsbD k.bit =
      componentUnknown (checkValue (blockOperand v e) k) := by
    cases k <;> exact getLsbD_mask7 _ _ _ _ _ _ _ (by decide)
  rw [hbit, componentUnknown_checkValue, List.any_eq_true]
  simp only [k.mem_cover_iff, and_assoc, and_comm (a := e.getLsbD _ = true)]

/-- R125: every Hamming index has the bit of some check's weight. -/
theorem exists_check_covering : ∀ i < 7, ∃ k : Check, (i + 1).testBit k.bit = true := by
  intro i hi
  have hbit : (i + 1).testBit 0 = true ∨ (i + 1).testBit 1 = true ∨ (i + 1).testBit 2 = true := by
    revert i
    decide
  rcases hbit with h | h | h
  · exact ⟨.s1, h⟩
  · exact ⟨.s2, h⟩
  · exact ⟨.s4, h⟩

/-- R125: every position is covered, so an erasure anywhere makes a component indeterminate. -/
theorem synEra_eq_zero_iff (v e : Mask) : synEra (syndrome (blockOperand v e)) = 0 ↔ e = 0 := by
  constructor
  · intro hdet
    apply BitVec.eq_of_getLsbD_eq
    intro i hi
    obtain ⟨k, hk⟩ := exists_check_covering i hi
    by_contra he
    have hset := (getLsbD_synEra_iff v e k).2 ⟨i, hi, by simpa using he, hk⟩
    simp [hdet] at hset
  · rintro rfl
    exact synEra_of_no_erasure v

/-- Settles O32, from the flag of each check. -/
theorem syndromeIsDeterminedWithoutErasures : Obligations.SyndromeIsDeterminedWithoutErasures := by
  unfold Obligations.SyndromeIsDeterminedWithoutErasures
  intro v e s
  refine ⟨_, exec_syn v e s, ?_⟩
  rw [State.commit_res, resEra_packRes]
  refine ⟨synEra_eq_zero_iff v e, fun k hk => ?_⟩
  match k, hk with
  | 0, _ => exact getLsbD_synEra_iff v e .s1
  | 1, _ => exact getLsbD_synEra_iff v e .s2
  | 2, _ => exact getLsbD_synEra_iff v e .s4

/-! ## The blocks with syndrome (0,0,0) (R126) -/

/-- R126: with the parity bits of R101 each check of a codeword reduces to 0. -/
theorem parityAt_encBits (d : BitVec 4) (k : Check) : parityAt (encBits d) k.cover = false := by
  cases k <;> simp [parityAt, Check.cover, getLsbD_encBits, -BitVec.getLsbD_eq_getElem]

/-- R126: a codeword has syndrome (0,0,0). -/
theorem synVal_encBits (d : BitVec 4) : synVal (syndrome (blockOperand (encBits d) 0)) = 0 := by
  rw [synVal_of_no_erasure, ← parityAt_cover_s1, ← parityAt_cover_s2, ← parityAt_cover_s4]
  simp [parityAt_encBits, mask7_low_eq_zero_iff]

/-- R126: three checks that are 0 fix the parity bits, so the word is the codeword of its data. -/
theorem encBits_dataNibble_of_checks {v : Mask} (h1 : check1 v = false) (h2 : check2 v = false)
    (h4 : check4 v = false) : encBits (nibbleField (dataNibble v)) = v := by
  apply BitVec.eq_of_getLsbD_eq
  intro i hi
  rw [encBits, nibbleOperand_nibbleField, getLsbD_blockVal _ hi]
  rw [check1] at h1
  rw [check2] at h2
  rw [check4] at h4
  interval_cases i <;>
    simp [dataNibble, codeword, blockSymbols, isOne, parity1, parity2, parity4, -BitVec.getLsbD_eq_getElem] <;> grind

/-- R126: the words with syndrome (0,0,0) are the codewords. -/
theorem synVal_eq_zero_iff (v : Mask) : synVal (syndrome (blockOperand v 0)) = 0 ↔ ∃ d, encBits d = v := by
  constructor
  · intro h
    rw [synVal_of_no_erasure] at h
    obtain ⟨h1, h2, h4⟩ := (mask7_low_eq_zero_iff _ _ _).1 h
    exact ⟨_, encBits_dataNibble_of_checks h1 h2 h4⟩
  · rintro ⟨d, rfl⟩
    exact synVal_encBits d

/-- Settles O33: both commands report their fields, and the words with syndrome (0,0,0) are the codewords. -/
theorem zeroSyndromeExactlyCodewords : Obligations.ZeroSyndromeExactlyCodewords := by
  unfold Obligations.ZeroSyndromeExactlyCodewords
  intro v s
  refine ⟨_, exec_syn v 0 s, ?_⟩
  rw [State.commit_res, resVal_packRes, synVal_eq_zero_iff]
  constructor
  · rintro ⟨d, hd⟩
    exact ⟨d, _, exec_enc d s, by rw [State.commit_res, resVal_packRes, hd]⟩
  · rintro ⟨d, u, hu, hv⟩
    rw [exec_enc] at hu
    cases hu
    exact ⟨d, by rw [← hv, State.commit_res, resVal_packRes]⟩

/-! ## The syndrome is linear and names flips (R128) -/

theorem parityAt_xor (x y : Mask) (ps : List Nat) : parityAt (x ^^^ y) ps = (parityAt x ps ^^ parityAt y ps) := by
  induction ps with
  | nil => rfl
  | cons i rest ih =>
    rw [parityAt, ih, BitVec.getLsbD_xor, parityAt, parityAt]
    simp [Bool.xor_left_comm]

theorem mask7_low_xor (a b c a' b' c' : Bool) :
    mask7 (a ^^ a') (b ^^ b') (c ^^ c') false false false false =
      mask7 a b c false false false false ^^^ mask7 a' b' c' false false false false := by
  apply BitVec.eq_of_getLsbD_eq
  intro i hi
  rw [BitVec.getLsbD_xor, getLsbD_mask7 _ _ _ _ _ _ _ hi, getLsbD_mask7 _ _ _ _ _ _ _ hi,
    getLsbD_mask7 _ _ _ _ _ _ _ hi]
  interval_cases i <;> rfl

/-- R128: without erasures the syndrome is linear over GF(2). -/
theorem synVal_xor (x y : Mask) :
    synVal (syndrome (blockOperand (x ^^^ y) 0)) =
      synVal (syndrome (blockOperand x 0)) ^^^ synVal (syndrome (blockOperand y 0)) := by
  simp only [synVal_of_no_erasure, ← parityAt_cover_s1, ← parityAt_cover_s2, ← parityAt_cover_s4, parityAt_xor,
    mask7_low_xor]

/-- R121: the syndrome of a single bit is its Hamming index. -/
theorem synVal_bitAt : ∀ i < 7, synVal (syndrome (blockOperand (bitAt i) 0)) = BitVec.ofNat 7 (i + 1) := by decide

/-- R128: a flip of a codeword's bit gives the syndrome of that bit alone. -/
theorem synVal_flip (d : BitVec 4) {i : Nat} (hi : i < 7) :
    synVal (syndrome (blockOperand (encBits d ^^^ bitAt i) 0)) = BitVec.ofNat 7 (i + 1) := by
  rw [synVal_xor, synVal_encBits, synVal_bitAt i hi]
  exact BitVec.zero_xor

/-- R128: two flips of a codeword's bits give the XOR of their indices. -/
theorem toNat_synVal_flip_flip (d : BitVec 4) {i j : Nat} (hi : i < 7) (hj : j < 7) :
    (synVal (syndrome (blockOperand (encBits d ^^^ bitAt i ^^^ bitAt j) 0))).toNat = (i + 1) ^^^ (j + 1) := by
  rw [synVal_xor, synVal_flip d hi, synVal_bitAt j hj, BitVec.toNat_xor, BitVec.toNat_ofNat, BitVec.toNat_ofNat,
    Nat.mod_eq_of_lt (by omega), Nat.mod_eq_of_lt (by omega)]

/-- R123: the syndrome number is the value bits, read as a number. -/
theorem toNat_syndromeNumber (y : Syndrome) : (syndromeNumber y).toNat = (synVal y).toNat := by
  unfold syndromeNumber synVal
  cases componentOne y.s1 <;> cases componentOne y.s2 <;> cases componentOne y.s4 <;> rfl

/-- R140: DEC commits what the decode of its block reports. -/
theorem exec_dec (v e : Mask) (s : State) :
    exec (.dec v e) s = .next (s.commit opDec (packVal (decodeSymbols (blockOperand v e)).data)
      (packEra (decodeSymbols (blockOperand v e)).data) (decodeSymbols (blockOperand v e)).code
      (decodeSymbols (blockOperand v e)).pos (decodeSymbols (blockOperand v e)).count) := rfl

theorem hasErasure_of_no_erasure (v : Mask) : hasErasure (blockOperand v 0) = false := by
  simp [hasErasure, blockSymbols, blockOperand, operandSymbol, isErased]

/-- R142: without erasures DEC takes the path of the syndrome number. -/
theorem decodeSymbols_of_no_erasure (v : Mask) : decodeSymbols (blockOperand v 0) = decodeBits (blockOperand v 0) := by
  rw [decodeSymbols, hasErasure_of_no_erasure, if_neg Bool.false_ne_true]

/-- R142: without erasures DEC reports the syndrome number as the position it flips. -/
theorem pos_decodeSymbols_of_no_erasure (v : Mask) :
    (decodeSymbols (blockOperand v 0)).pos = syndromeNumber (syndrome (blockOperand v 0)) := by
  rw [decodeSymbols_of_no_erasure, decodeBits]

/-- Settles O34: linearity takes the syndrome of a word with flipped bits apart into that of the codeword, which is 0, and
those of the bits. -/
theorem syndromeIsLinearAndNamesFlips : Obligations.SyndromeIsLinearAndNamesFlips := by
  unfold Obligations.SyndromeIsLinearAndNamesFlips
  refine ⟨synVal_xor, fun d i s hi => ⟨_, exec_syn _ 0 s, ?one_flip⟩,
    fun d i j s hi hj hij => ⟨_, exec_syn _ 0 s, ?two_flips⟩⟩
  case one_flip => rw [State.commit_res, resVal_packRes, synVal_flip d hi]
  case two_flips =>
    rw [State.commit_res, resVal_packRes, toNat_synVal_flip_flip d hi hj]
    refine ⟨rfl, ?nonzero, ?not_first, ?not_second, _, exec_dec _ 0 s, ?position⟩
    case nonzero =>
      rw [ne_eq, Nat.xor_eq_zero_iff]
      omega
    case not_first => simp
    case not_second => simp
    case position =>
      rw [State.commit_stat, statPos_packStat, pos_decodeSymbols_of_no_erasure, toNat_syndromeNumber,
        toNat_synVal_flip_flip d hi hj]

end Sys2Proof.Machine
end

section
/-! PROOFS of the obligations of spec/43_decode.md: the path without erasures (R142, R143), the candidates and the search
(R144 to R148), what DEC writes (R149, R151), and the corner cases (R150, R155 to R157). -/

namespace Sys2Proof.Machine

open Sys2Proof.Claims

/-! ## Blocks, position by position -/

theorem isErased_operandSymbol (v e : Mask) (i : Nat) : isErased (operandSymbol v e i) = e.getLsbD i := by
  rw [operandSymbol]
  cases e.getLsbD i <;> rfl

theorem operandSymbol_of_no_erasure (v : Mask) (i : Nat) : operandSymbol v 0 i = .bit (v.getLsbD i) := by
  simp [operandSymbol]

theorem getElem_blockSymbols_blockOperand (v e : Mask) {i : Nat} (hi : i < 7) :
    (blockSymbols (blockOperand v e))[i] = operandSymbol v e i := by
  interval_cases i <;> rfl

/-- R141: no symbol of the block is erased. -/
theorem hasErasure_eq_false_iff (b : Block) :
    hasErasure b = false ↔ ∀ (i : Nat) (hi : i < 7), isErased (blockSymbols b)[i] = false := by
  rw [hasErasure, List.any_eq_false, List.forall_mem_iff_forall_getElem]
  simp only [Bool.not_eq_true]
  exact Iff.rfl

/-- R141: `E` is empty exactly when the ERA field is 0. -/
theorem hasErasure_blockOperand_eq_false_iff (v e : Mask) : hasErasure (blockOperand v e) = false ↔ e = 0 := by
  rw [hasErasure_eq_false_iff]
  constructor
  · intro h
    apply BitVec.eq_of_getLsbD_eq
    intro i hi
    rw [← isErased_operandSymbol v, ← getElem_blockSymbols_blockOperand v e hi, h i hi]
    simp
  · rintro rfl i hi
    rw [getElem_blockSymbols_blockOperand, isErased_operandSymbol]
    simp

theorem blockOperand_blockVal_of_no_erasure {b : Block} (h : hasErasure b = false) :
    blockOperand (blockVal b) 0 = b := by
  have hera : blockEra b = 0 := by
    rw [← hasErasure_blockOperand_eq_false_iff (blockVal b), blockOperand_spelling, h]
  rw [← hera, blockOperand_spelling]

theorem canonical_zero (v : Mask) : canonical v 0 = true := by
  simp [canonical]

/-- R72: a block without erasures has one VAL field. -/
theorem blockOperand_zero_injective : Function.Injective (blockOperand · 0) := fun v v' h =>
  (canonical_eq_of_blockOperand_eq (canonical_zero v) (canonical_zero v') h).1

/-! ## The candidates of a block (R144) -/

theorem mem_fillings_iff (x y : Symbol) : x ∈ fillings y ↔ isErased x = false ∧ (y = x ∨ y = .erased) := by
  rcases x with b | _ <;> rcases y with c | _
  · simp [fillings, isErased, eq_comm]
  · cases b <;> simp [fillings, isErased]
  · simp [fillings, isErased]
  · simp [fillings, isErased]

theorem nodup_fillings (x : Symbol) : (fillings x).Nodup := by
  cases x <;> simp [fillings]

theorem length_fillings (x : Symbol) : (fillings x).length = 2 ^ (isErased x).toNat := by
  cases x <;> rfl

/-- R144: the candidates are the product of the fillings of the seven positions. -/
theorem candidates_eq_map_product (b : Block) :
    candidates b = (fillings b.p1 ×ˢ fillings b.p2 ×ˢ fillings b.d1 ×ˢ fillings b.p4 ×ˢ fillings b.d2 ×ˢ
      fillings b.d3 ×ˢ fillings b.d4).map blockEquiv.symm := by
  simp [candidates, SProd.sprod, List.product, List.map_flatMap, blockEquiv, Function.comp_def]

theorem mem_candidates_iff (b w : Block) :
    w ∈ candidates b ↔ ∀ (i : Nat) (hi : i < 7), (blockSymbols w)[i] ∈ fillings (blockSymbols b)[i] := by
  rw [candidates_eq_map_product, ← blockEquiv.symm_apply_apply w, List.mem_map_of_injective blockEquiv.symm.injective]
  simp only [List.mem_product, blockEquiv, Equiv.coe_fn_mk]
  constructor
  · rintro ⟨h0, h1, h2, h3, h4, h5, h6⟩ i hi
    interval_cases i <;> assumption
  · intro h
    exact ⟨h 0 (by decide), h 1 (by decide), h 2 (by decide), h 3 (by decide), h 4 (by decide), h 5 (by decide),
      h 6 (by decide)⟩

theorem nodup_candidates (b : Block) : (candidates b).Nodup := by
  rw [candidates_eq_map_product]
  exact ((nodup_fillings _).product <| (nodup_fillings _).product <| (nodup_fillings _).product <|
    (nodup_fillings _).product <| (nodup_fillings _).product <| (nodup_fillings _).product
    (nodup_fillings _)).map blockEquiv.symm.injective

theorem length_candidates (b : Block) :
    (candidates b).length = 2 ^ ((blockSymbols b).filter isErased).length := by
  rw [candidates_eq_map_product]
  simp only [List.length_map, List.length_product, length_fillings, ← pow_add, ← List.countP_eq_length_filter,
    blockSymbols, List.countP_cons, List.countP_nil, Bool.toNat, Bool.cond_eq_ite]
  congr 1
  omega

/-- R144: at most seven positions are erased. -/
theorem length_candidates_le (b : Block) : (candidates b).length ≤ 128 := by
  have hpos : ((blockSymbols b).filter isErased).length ≤ 7 := List.length_filter_le _ _
  rw [length_candidates]
  exact Nat.pow_le_pow_right (by decide) hpos

/-- R144: a candidate has no erased position and agrees with the block where that is not erased. -/
theorem mem_candidates_iff_agrees (b w : Block) :
    w ∈ candidates b ↔ hasErasure w = false ∧
      ∀ i : Nat, (blockSymbols b)[i]? = (blockSymbols w)[i]? ∨ (blockSymbols b)[i]? = some .erased := by
  simp only [mem_candidates_iff, mem_fillings_iff, hasErasure_eq_false_iff]
  have hget (c : Block) {i : Nat} (hi : i < 7) : (blockSymbols c)[i]? = some (blockSymbols c)[i] :=
    List.getElem?_eq_getElem hi
  have hend (c : Block) {i : Nat} (hi : ¬i < 7) : (blockSymbols c)[i]? = none :=
    List.getElem?_eq_none (Nat.not_lt.1 hi)
  constructor
  · intro h
    refine ⟨fun i hi => (h i hi).1, fun i => ?_⟩
    by_cases hi : i < 7
    · simpa [hget _ hi] using (h i hi).2
    · exact .inl ((hend b hi).trans (hend w hi).symm)
  · rintro ⟨hbits, hagree⟩ i hi
    exact ⟨hbits i hi, by simpa [hget _ hi] using hagree i⟩

theorem hasErasure_of_mem_candidates {b w : Block} (h : w ∈ candidates b) : hasErasure w = false :=
  ((mem_candidates_iff_agrees b w).1 h).1

/-- R141: where there is an erasure DEC searches the candidates. -/
theorem decodeSymbols_of_erasure {b : Block} (h : hasErasure b = true) :
    decodeSymbols b = searchOutcome b (matching b) := if_pos h

/-- Settles O36, from the product of the fillings. -/
theorem candidatesAreAllFillings : Obligations.CandidatesAreAllFillings := fun b =>
  ⟨length_candidates b, length_candidates_le b, nodup_candidates b, mem_candidates_iff_agrees b,
    decodeSymbols_of_erasure⟩

/-! ## The matching candidates are the codewords that agree with the block (R145) -/

/-- R105: the ENC table lists the codewords. -/
theorem mem_codebook_iff (w : Mask) : w ∈ codebook ↔ ∃ d : BitVec 4, encBits d = w := by
  have hto : ∀ w ∈ codebook, ∃ d : BitVec 4, encBits d = w := by decide
  have hfrom : ∀ d : BitVec 4, encBits d ∈ codebook := by decide
  exact ⟨hto w, fun ⟨d, hd⟩ => hd ▸ hfrom d⟩

theorem nodup_codebook : codebook.Nodup := by decide

theorem mem_matchesOf_iff (v e w : Mask) : w ∈ matchesOf v e ↔ (∃ d, encBits d = w) ∧ w &&& ~~~e = v := by
  rw [matchesOf, List.mem_filter, mem_codebook_iff, beq_iff_eq]

theorem nodup_matchesOf (v e : Mask) : (matchesOf v e).Nodup := nodup_codebook.filter _

/-- R124: a syndrome without indeterminate components is (0,0,0) exactly when SYN reports 0 for it. -/
theorem isZeroSyndrome_iff (v : Mask) : isZeroSyndrome (syndrome (blockOperand v 0)) = true ↔
    synVal (syndrome (blockOperand v 0)) = 0 := by
  have hdet (k : Check) : checkValue (blockOperand v 0#7) k = some (parityAt v k.cover) := by
    simp [checkValue_blockOperand]
  refine Iff.trans ?_ (mask7_low_eq_zero_iff _ _ _).symm
  simp [isZeroSyndrome, syndrome, hdet, componentZero, componentOne, and_assoc]

theorem number_eq_syndromeNumber (v : Mask) : number v = syndromeNumber (syndrome (blockOperand v 0)) := by
  apply BitVec.eq_of_toNat_eq
  rw [toNat_syndromeNumber, synVal_of_no_erasure, toNat_mask7_low, number, BitVec.toNat_ofNat, Nat.mod_eq_of_lt]
  have h1 := Bool.toNat_lt (check1 v)
  have h2 := Bool.toNat_lt (check2 v)
  have h4 := Bool.toNat_lt (check4 v)
  omega

/-- R126: the syndrome number is 0 exactly on the codewords. -/
theorem number_eq_zero_iff (v : Mask) : number v = 0 ↔ ∃ d, encBits d = v := by
  rw [← synVal_eq_zero_iff, number_eq_syndromeNumber, ← BitVec.toNat_inj, toNat_syndromeNumber, ← BitVec.toNat_inj]
  rfl

theorem getLsbD_and_not (w e : Mask) {i : Nat} (hi : i < 7) :
    (w &&& ~~~e).getLsbD i = (w.getLsbD i && !e.getLsbD i) := by
  rw [BitVec.getLsbD_and, BitVec.getLsbD_not, decide_eq_true hi, Bool.true_and]

theorem bit_mem_fillings_operandSymbol (v e : Mask) (i : Nat) (b : Bool) :
    .bit b ∈ fillings (operandSymbol v e i) ↔ e.getLsbD i = true ∨ v.getLsbD i = b := by
  rw [operandSymbol]
  cases e.getLsbD i with
  | true => cases b <;> simp [fillings]
  | false => simp [fillings, eq_comm (a := b)]

/-- R144: a word agrees with a canonical block outside the erased positions. -/
theorem and_not_eq_iff {v e : Mask} (h : canonical v e = true) (w : Mask) :
    w &&& ~~~e = v ↔ ∀ i < 7, e.getLsbD i = true ∨ v.getLsbD i = w.getLsbD i := by
  have hc := (canonical_iff v e).1 h
  constructor
  · rintro rfl i hi
    rw [getLsbD_and_not _ _ hi]
    cases e.getLsbD i <;> simp
  · intro hagree
    apply BitVec.eq_of_getLsbD_eq
    intro i hi
    rw [getLsbD_and_not _ _ hi]
    rcases hagree i hi with he | hv
    · rw [he, hc i he, Bool.not_true, Bool.and_false]
    · rw [← hv]
      cases he : e.getLsbD i <;> simp [hc i, he, -BitVec.getLsbD_eq_getElem]

/-- R144: the candidates of a canonical block are the words that agree with it outside the erased positions. -/
theorem mem_candidates_blockOperand_iff {v e : Mask} (h : canonical v e = true) (w : Mask) :
    blockOperand w 0 ∈ candidates (blockOperand v e) ↔ w &&& ~~~e = v := by
  rw [and_not_eq_iff h, mem_candidates_iff]
  simp only [getElem_blockSymbols_blockOperand, operandSymbol_of_no_erasure, bit_mem_fillings_operandSymbol]

/-- R145: every matching candidate is a codeword. -/
theorem exists_codeword_of_mem_matching {b w : Block} (h : w ∈ matching b) :
    ∃ d, blockOperand (encBits d) 0 = w := by
  obtain ⟨hcand, hzero⟩ := List.mem_filter.1 h
  have hblock := blockOperand_blockVal_of_no_erasure (hasErasure_of_mem_candidates hcand)
  rw [← hblock, isZeroSyndrome_iff, synVal_eq_zero_iff] at hzero
  obtain ⟨d, hd⟩ := hzero
  exact ⟨d, by rw [hd, hblock]⟩

theorem nodup_matching (b : Block) : (matching b).Nodup := (nodup_candidates b).filter _

/-- R145: the search finds the codewords that agree with the block, each once. -/
theorem matching_perm_matchesOf {v e : Mask} (h : canonical v e = true) :
    (matching (blockOperand v e)).Perm ((matchesOf v e).map (blockOperand · 0)) := by
  rw [List.perm_ext_iff_of_nodup (nodup_matching _) ((nodup_matchesOf v e).map blockOperand_zero_injective)]
  have hword (m : Mask) : blockOperand m 0 ∈ matching (blockOperand v e) ↔ m ∈ matchesOf v e := by
    rw [matching, List.mem_filter, mem_candidates_blockOperand_iff h, isZeroSyndrome_iff, synVal_eq_zero_iff,
      mem_matchesOf_iff, and_comm]
  intro w
  rw [List.mem_map]
  constructor
  · intro hw
    obtain ⟨d, rfl⟩ := exists_codeword_of_mem_matching hw
    exact ⟨encBits d, (hword _).1 hw, rfl⟩
  · rintro ⟨m, hm, rfl⟩
    exact (hword m).2 hm

/-! ## What the search reports (R146 to R148) -/

theorem searchOutcome_of_two_le (b : Block) {ws : List Block} (h : 2 ≤ ws.length) :
    searchOutcome b ws =
      { data := dataSymbols b, code := .ambiguous, pos := 0, count := BitVec.ofNat 5 ws.length } := by
  match ws, h with
  | _ :: _ :: _, _ => rfl

/-- R153: the outcome depends on the set of matching candidates only. -/
theorem searchOutcome_perm (b : Block) {ws ws' : List Block} (h : ws.Perm ws') :
    searchOutcome b ws = searchOutcome b ws' := by
  match ws with
  | [] => rw [List.nil_perm.1 h]
  | [w] => rw [List.singleton_perm.1 h]
  | w :: w' :: rest =>
    have hlen : 2 ≤ (w :: w' :: rest).length := by simp
    rw [searchOutcome_of_two_le b hlen, searchOutcome_of_two_le b (h.length_eq ▸ hlen), h.length_eq]

/-! ## The fields DEC writes (R143, R149) -/

theorem dataField_eq_mask7 (v : Mask) :
    dataField v = mask7 (v.getLsbD 2) (v.getLsbD 4) (v.getLsbD 5) (v.getLsbD 6) false false false := rfl

theorem dataField_zero : dataField 0 = 0 := by decide

theorem isOne_operandSymbol {v e : Mask} (h : canonical v e = true) (i : Nat) :
    isOne (operandSymbol v e i) = v.getLsbD i := by
  rcases canonical_spelling h i with ⟨hv, -, hx⟩ | ⟨hv, -, hx⟩ | ⟨hv, -, hx⟩ <;> rw [hx, hv] <;> rfl

/-- R143, R149: the value bits of a block's data symbols. -/
theorem packVal_dataSymbols {v e : Mask} (h : canonical v e = true) :
    packVal (dataSymbols (blockOperand v e)) = dataField v := by
  simp only [packVal, dataSymbols, blockOperand, isOne_operandSymbol h, dataField_eq_mask7]

/-- R143, R149: the unresolved flags of a block's data symbols. -/
theorem packEra_dataSymbols (v e : Mask) : packEra (dataSymbols (blockOperand v e)) = dataField e := by
  simp only [packEra, dataSymbols, blockOperand, isErased_operandSymbol, dataField_eq_mask7]

/-- R140, R79: the state in which DEC has reported `r`. -/
def State.commitDecoded (r : Decoded) (s : State) : State :=
  s.commit opDec (packVal r.data) (packEra r.data) r.code r.pos r.count

theorem exec_dec_eq_commitDecoded (v e : Mask) (s : State) :
    exec (.dec v e) s = .next (s.commitDecoded (decodeSymbols (blockOperand v e))) := exec_dec v e s

/-- R146 to R149: RES and STAT after a search that found the codewords `ws`. -/
theorem commitDecoded_searchOutcome {v e : Mask} (h : canonical v e = true) (ws : List Mask) (s : State) :
    s.commitDecoded (searchOutcome (blockOperand v e) (ws.map (blockOperand · 0))) =
      { s with res := searchRes v e ws, stat := searchStat ws } := by
  have hval := packVal_dataSymbols h
  have hera := packEra_dataSymbols v e
  match ws with
  | [] => simp only [List.map, searchOutcome, State.commitDecoded, hval, hera]; rfl
  | [w] =>
    simp only [List.map, searchOutcome, State.commitDecoded, packVal_dataSymbols (canonical_zero w),
      packEra_dataSymbols, dataField_zero]
    rfl
  | w :: w' :: rest =>
    simp only [List.map, searchOutcome, State.commitDecoded, hval, hera, List.length_cons, List.length_map]
    rfl

/-- R145 to R149: DEC of a canonical block with an erasure, in terms of the codewords that agree with it. -/
theorem exec_dec_of_erasure {v e : Mask} (h : canonical v e = true) (he : e ≠ 0) (s : State) :
    exec (.dec v e) s = .next { s with res := searchRes v e (matchesOf v e), stat := searchStat (matchesOf v e) } := by
  have hera : hasErasure (blockOperand v e) = true := by
    rw [← Bool.not_eq_false, hasErasure_blockOperand_eq_false_iff]
    exact he
  rw [exec_dec_eq_commitDecoded, decodeSymbols_of_erasure hera, searchOutcome_perm _ (matching_perm_matchesOf h),
    commitDecoded_searchOutcome h]

/-- Settles O37: the search is over the codewords that agree with the block, and their syndrome number is 0. -/
theorem decFindsMatchingCodewords : Obligations.DecFindsMatchingCodewords :=
  ⟨fun _ _ s h he => exec_dec_of_erasure h he s,
    fun w => ⟨(number_eq_zero_iff w).trans (mem_codebook_iff w).symm, mem_codebook_iff w⟩⟩

/-! ## Without erasures: the flip (R142) -/

theorem getLsbD_bitAt (i : Nat) {j : Nat} (hj : j < 7) : (bitAt i).getLsbD j = decide (i = j) := by
  rw [bitAt, BitVec.getLsbD_shiftLeft, BitVec.getLsbD_one, Bool.eq_iff_iff]
  simp [hj]
  omega

theorem flipIndex_blockOperand (v : Mask) {i : Nat} (hi : i < 7) :
    flipIndex (blockOperand v 0) (i + 1) = blockOperand (v ^^^ bitAt i) 0 := by
  have hbit (j : Nat) (hj : j < 7) : (v ^^^ bitAt i).getLsbD j = (v.getLsbD j ^^ decide (i = j)) := by
    rw [BitVec.getLsbD_xor, getLsbD_bitAt i hj]
  simp only [blockOperand, operandSymbol_of_no_erasure]
  interval_cases i <;> simp [flipIndex, flipSymbol, hbit, -BitVec.getLsbD_eq_getElem, -BitVec.getLsbD_xor]

/-- R142: a correction at the 1-based position `n` flips bit `n - 1`. -/
theorem flipIndex_toNat_blockOperand (v : Mask) (n : BitVec 3) :
    flipIndex (blockOperand v 0) n.toNat = blockOperand (flipped v n) 0 := by
  by_cases hn : n = 0
  · rw [flipped, if_pos hn, hn]
    rfl
  · have hpos : n.toNat ≠ 0 := fun h => hn (BitVec.eq_of_toNat_eq h)
    have hlt := n.isLt
    obtain ⟨i, hi⟩ := Nat.exists_eq_succ_of_ne_zero hpos
    rw [flipped, if_neg hn, hi, Nat.succ_sub_one]
    exact flipIndex_blockOperand v (by omega)

theorem dataField_xor (a b : Mask) : dataField (a ^^^ b) = dataField a ^^^ dataField b := by
  apply BitVec.eq_of_getLsbD_eq
  intro i hi
  simp only [dataField_eq_mask7, BitVec.getLsbD_xor, getLsbD_mask7 _ _ _ _ _ _ _ hi]
  interval_cases i <;> rfl

/-- R142: a flip at a parity position changes no data bit, one at index 3, 5, 6 or 7 changes d1, d2, d3 or d4. -/
theorem dataField_flipped (v : Mask) (n : BitVec 3) :
    dataField (flipped v n) = dataField v ^^^ (if n = 3 then bitAt 0 else if n = 5 then bitAt 1 else if n = 6 then
      bitAt 2 else if n = 7 then bitAt 3 else 0) := by
  have hbit : ∀ n : BitVec 3, n ≠ 0 → dataField (bitAt (n.toNat - 1)) = if n = 3 then bitAt 0 else
      if n = 5 then bitAt 1 else if n = 6 then bitAt 2 else if n = 7 then bitAt 3 else 0 := by decide
  by_cases hn : n = 0
  · simp [flipped, hn]
  · rw [flipped, if_neg hn, dataField_xor, hbit n hn]

/-- R142: DEC of seven received bits. -/
theorem exec_dec_of_no_erasure (v : Mask) (s : State) :
    exec (.dec v 0) s = .next { s with
      res := packRes 3 (dataField (flipped v (number v))) 0
      stat := packStat 0 (number v) 3 (if number v = 0 then 2 else 3) } := by
  have hcode : codeBits (if number v = 0 then .clean else .corrected) = if number v = 0 then 2 else 3 := by
    split <;> rfl
  rw [exec_dec_eq_commitDecoded, decodeSymbols_of_no_erasure, decodeBits, correctSingle, ← number_eq_syndromeNumber,
    flipIndex_toNat_blockOperand, State.commitDecoded, State.commit, hcode, packVal_dataSymbols (canonical_zero _),
    packEra_dataSymbols, dataField_zero]
  rfl

/-- Settles O35, from the flip of the block's bits and the data bits' linearity. -/
theorem decCorrectsSingleFlip : Obligations.DecCorrectsSingleFlip := ⟨exec_dec_of_no_erasure, dataField_flipped⟩

/-! ## The status table (R151) -/

/-- R151: STAT is `(m << 16) | (pos << 8) | (op << 4) | CODE`. -/
theorem toNat_packStat (count : BitVec 5) (pos : BitVec 3) (op code : BitVec 4) :
    (packStat count pos op code).toNat =
      count.toNat * 65536 + pos.toNat * 256 + op.toNat * 16 + code.toNat := by
  simp only [packStat, BitVec.toNat_append, BitVec.toNat_ofNat, Nat.zero_mod, Nat.zero_shiftLeft, Nat.zero_or,
    Nat.or_zero]
  rw [← Nat.shiftLeft_add_eq_or_of_lt code.isLt, ← Nat.shiftLeft_add_eq_or_of_lt op.isLt,
    ← Nat.shiftLeft_add_eq_or_of_lt pos.isLt]
  simp only [Nat.shiftLeft_eq]
  omega

/-- R151, row 1. -/
theorem decodeSymbols_of_clean {b : Block} (he : hasErasure b = false) (hs : syndromeNumber (syndrome b) = 0) :
    decodeSymbols b = { data := dataSymbols b, code := .clean, pos := 0, count := 0 } := by
  simp only [decodeSymbols, he, decodeBits, correctSingle, hs]
  rfl

/-- R151, row 2. -/
theorem decodeSymbols_of_corrected {b : Block} (he : hasErasure b = false) (hs : syndromeNumber (syndrome b) ≠ 0) :
    decodeSymbols b =
      { data := dataSymbols (flipIndex b (syndromeNumber (syndrome b)).toNat), code := .corrected
        pos := syndromeNumber (syndrome b), count := 0 } := by
  simp only [decodeSymbols, he, decodeBits, correctSingle, if_neg hs]
  rfl

/-- R146: a matching candidate has no unresolved data symbol. -/
theorem packEra_dataSymbols_of_mem_matching {b w : Block} (h : w ∈ matching b) : packEra (dataSymbols w) = 0 := by
  obtain ⟨d, rfl⟩ := exists_codeword_of_mem_matching h
  rw [packEra_dataSymbols, dataField_zero]

/-- R151: there are at most 16 matching candidates, since each is a codeword. -/
theorem length_matching_le (b : Block) : (matching b).length ≤ 16 := by
  have hsub : matching b ⊆ codebook.map (blockOperand · 0) := fun w hw => by
    obtain ⟨d, rfl⟩ := exists_codeword_of_mem_matching hw
    exact List.mem_map_of_mem ((mem_codebook_iff _).2 ⟨d, rfl⟩)
  exact (List.subperm_of_subset (nodup_matching b) hsub).length_le

/-- R151: the STAT words of the rows with no position and a fixed number of matches. -/
theorem packStat_dec_clean : packStat 0 0 opDec (codeBits .clean) = 0x32#32 := by decide

theorem packStat_dec_resolved : packStat 1 0 opDec (codeBits .resolved) = 0x10034#32 := by decide

theorem packStat_dec_noSolution : packStat 0 0 opDec (codeBits .noSolution) = 0x35#32 := by decide

/-- Settles O38, row by row. -/
theorem decStatusTable : Obligations.DecStatusTable := by
  unfold Obligations.DecStatusTable
  intro v e s
  refine ⟨_, exec_dec_eq_commitDecoded v e s, fun he hs => ?clean, fun he hs => ?corrected, fun he w hw => ?resolved,
    fun he hw => ?noSolution, fun he hw => ?ambiguous⟩
  case clean =>
    rw [decodeSymbols_of_clean he hs]
    exact ⟨packStat_dec_clean, rfl⟩
  case corrected =>
    rw [decodeSymbols_of_corrected he hs]
    refine ⟨?_, rfl⟩
    rw [State.commitDecoded, State.commit_stat, toNat_packStat]
    simp [opDec, codeBits]
  case resolved =>
    have hmem : w ∈ matching (blockOperand v e) := hw ▸ List.mem_singleton_self w
    rw [decodeSymbols_of_erasure he, hw]
    exact ⟨packStat_dec_resolved, rfl, (resEra_packRes ..).trans (packEra_dataSymbols_of_mem_matching hmem)⟩
  case noSolution =>
    rw [decodeSymbols_of_erasure he, hw]
    exact ⟨packStat_dec_noSolution, rfl⟩
  case ambiguous =>
    have hlen := length_matching_le (blockOperand v e)
    rw [decodeSymbols_of_erasure he, searchOutcome_of_two_le _ hw]
    refine ⟨hlen, ?_, rfl⟩
    rw [State.commitDecoded, State.commit_stat, toNat_packStat]
    simp [opDec, codeBits]
    omega

/-! ## RES after DEC (R149) -/

/-- The block whose first four symbols are those of a partial nibble, as RES spells it. -/
def resultBlock (q : PartialNibble) : Block :=
  { p1 := q.d1, p2 := q.d2, d1 := q.d3, p4 := q.d4, d2 := .bit false, d3 := .bit false, d4 := .bit false }

theorem blockVal_resultBlock (q : PartialNibble) : blockVal (resultBlock q) = packVal q := rfl

theorem blockEra_resultBlock (q : PartialNibble) : blockEra (resultBlock q) = packEra q := rfl

/-- R149: no output symbol is spelled both 1 and `?`. -/
theorem packVal_and_packEra (q : PartialNibble) : packVal q &&& packEra q = 0 :=
  beq_iff_eq.1 (canonical_spelling_block (resultBlock q))

/-- R149: the output symbols are read back from RES. -/
theorem nibbleSymbols_packRes (op : BitVec 4) (q : PartialNibble) :
    nibbleSymbols (packRes op (packVal q) (packEra q)) = [q.d1, q.d2, q.d3, q.d4] := by
  rw [nibbleSymbols, resVal_packRes, resEra_packRes, ← blockVal_resultBlock, ← blockEra_resultBlock]
  simp [operandSymbol_spelling, blockSymbols, resultBlock]

/-- R149: RES holds 0 outside OP and the low four bits of VAL and ERA. -/
theorem packRes_low_and_mask (op : BitVec 4) (a0 a1 a2 a3 b0 b1 b2 b3 : Bool) :
    packRes op (mask7 a0 a1 a2 a3 false false false) (mask7 b0 b1 b2 b3 false false false) &&& 0xFFF0F0F0#32 = 0 := by
  have hmask : ∀ i < 32, (0xFFF0F0F0#32).getLsbD i = (4 ≤ i && i < 8 || 12 ≤ i && i < 16 || 20 ≤ i) := by decide
  apply BitVec.eq_of_getLsbD_eq
  intro i hi
  rw [BitVec.getLsbD_and, hmask i hi]
  simp only [packRes, mask7, flag, BitVec.getLsbD_append]
  interval_cases i <;> simp

/-- Settles O39: RES is packed from the partial nibble, whose spelling is that of a block. -/
theorem decResultIsCanonical : Obligations.DecResultIsCanonical := by
  unfold Obligations.DecResultIsCanonical
  intro v e s
  refine ⟨_, exec_dec v e s, resOp_packRes .., packRes_low_and_mask .., ?_, nibbleSymbols_packRes ..⟩
  rw [State.commit_res, resVal_packRes, resEra_packRes, packVal_and_packEra]

/-! ## A flip is never corrected where there is an erasure (R150) -/

theorem dataField_encBits (d : BitVec 4) : dataField (encBits d) = 0#3 ++ d := by
  revert d
  decide

/-- R150, R151: the code of a search. -/
theorem statCode_searchStat (ws : List Mask) :
    statCode (searchStat ws) = 4 ∨ statCode (searchStat ws) = 5 ∨ statCode (searchStat ws) = 6 := by
  match ws with
  | [] => exact .inr (.inl (statCode_packStat ..))
  | [_] => exact .inl (statCode_packStat ..)
  | _ :: _ :: _ => exact .inr (.inr (statCode_packStat ..))

theorem statCode_searchStat_eq_resolved {ws : List Mask} (h : statCode (searchStat ws) = 4) : ∃ w, ws = [w] := by
  match ws, h with
  | [w], _ => exact ⟨w, rfl⟩
  | [], h => simp [searchStat] at h
  | _ :: _ :: _, h => simp [searchStat] at h

theorem statCode_searchStat_eq_noSolution {ws : List Mask} (h : statCode (searchStat ws) = 5) : ws = [] := by
  match ws, h with
  | [], _ => rfl
  | [_], h => simp [searchStat] at h
  | _ :: _ :: _, h => simp [searchStat] at h

/-- R74: clearing the erased positions makes an operand canonical. -/
theorem canonical_and_not (v e : Mask) : canonical (v &&& ~~~e) e = true := by
  simp [canonical, BitVec.and_assoc]

/-- R150: a word does not agree with itself flipped at a position that is not erased. -/
theorem flip_not_agrees (w : Mask) {e : Mask} {i : Nat} (hi : i < 7) (hkeep : e.getLsbD i = false) :
    w &&& ~~~e ≠ (w ^^^ bitAt i) &&& ~~~e := by
  intro h
  have hbit := congrArg (BitVec.getLsbD · i) h
  simp [getLsbD_and_not _ _ hi, getLsbD_bitAt i hi, hkeep, -BitVec.getLsbD_eq_getElem, -BitVec.getLsbD_and] at hbit

/-- Settles O43: the one matching codeword agrees with the flipped bit, so it is not the one encoded. -/
theorem erasurePathNeverCorrects : Obligations.ErasurePathNeverCorrects := by
  unfold Obligations.ErasurePathNeverCorrects
  refine ⟨fun d e i s he hi hkeep => ⟨_, exec_dec_of_erasure (canonical_and_not _ e) he s, statCode_searchStat _,
    fun hcode hval => ?wrong_nibble⟩, fun s => ?rule_example⟩
  case wrong_nibble =>
    obtain ⟨w, hw⟩ := statCode_searchStat_eq_resolved hcode
    have hmem : w ∈ matchesOf ((encBits d ^^^ bitAt i) &&& ~~~e) e := hw ▸ List.mem_singleton_self w
    obtain ⟨⟨d', rfl⟩, hagree⟩ := (mem_matchesOf_iff _ _ _).1 hmem
    rw [hw, searchRes, resVal_packRes, dataField_encBits, BitVec.append_right_inj] at hval
    exact flip_not_agrees _ hi hkeep (hval ▸ hagree)
  case rule_example =>
    have hmatch : matchesOf 0b1100000#7 0b0000011#7 = [0b1100001#7] := by decide
    rw [exec_dec_of_erasure (by decide) (by decide), hmatch]
    rfl

/-! ## Blocks that pass through (R155, R156) -/

theorem searchRes_nil (v e : Mask) : searchRes v e [] = packRes 3 (dataField v) (dataField e) := rfl

/-- R155: with erasures at parity positions only, no data symbol is `?`. -/
theorem dataField_eq_zero {e : Mask} (h : e &&& 0b1110100#7 = 0) : dataField e = 0 := by
  have hbit := (canonical_iff e 0b1110100#7).1 (beq_iff_eq.2 h)
  rw [dataField_eq_mask7, hbit 2 rfl, hbit 4 rfl, hbit 5 rfl, hbit 6 rfl]
  rfl

/-- R156: the codewords that agree with `???001?`. -/
theorem matchesOf_agreeing_pair : matchesOf 0b0100000#7 0b1000111#7 = [0b1100001#7, 0b1100110#7] := by decide

/-- R156: the two matching candidates of `???001?`. -/
theorem matching_agreeing_pair : (matching (blockOperand 0b0100000#7 0b1000111#7)).Perm
    [blockOperand 0b1100001#7 0, blockOperand 0b1100110#7 0] := by
  have hperm := matching_perm_matchesOf (v := 0b0100000#7) (e := 0b1000111#7) (by decide)
  rwa [matchesOf_agreeing_pair] at hperm

/-- Settles O45: NOSOLUTION is a search that found no codeword, and the examples are searches of the codebook. -/
theorem unresolvedBlocksPassThrough : Obligations.UnresolvedBlocksPassThrough := by
  unfold Obligations.UnresolvedBlocksPassThrough
  refine ⟨fun v e s h hdata => ?parity_only, fun s => ⟨?silent, ?agreed, ?two, ?agreed_bit⟩⟩
  case parity_only =>
    by_cases he : e = 0
    · subst he
      refine ⟨_, exec_dec_of_no_erasure v s, fun hcode => ?_⟩
      rw [statCode_packStat] at hcode
      split at hcode <;> cases hcode
    · refine ⟨_, exec_dec_of_erasure h he s, fun hcode => ?_⟩
      rw [statCode_searchStat_eq_noSolution hcode, searchRes_nil, dataField_eq_zero hdata]
  case silent =>
    have hmatch : matchesOf 0b1110110#7 0b0000001#7 = [] := by decide
    rw [exec_dec_of_erasure (by decide) (by decide), hmatch]
    rfl
  case agreed =>
    rw [exec_dec_of_erasure (by decide) (by decide), matchesOf_agreeing_pair]
    rfl
  case two =>
    rw [matching_agreeing_pair.length_eq]
    rfl
  case agreed_bit =>
    intro w hw
    rw [matching_agreeing_pair.mem_iff] at hw
    revert w
    decide

/-! ## DEC undoes ENC (R157) -/

/-- Words that agree outside the erased positions differ in erased positions only. -/
theorem popcount_xor_le_of_agrees {x y e : Mask} (h : x &&& ~~~e = y &&& ~~~e) :
    popcount (x ^^^ y) ≤ popcount e := by
  simp only [popcount_eq_card]
  refine Finset.card_le_card fun i => ?_
  simp only [Finset.mem_filter, Finset.mem_range, BitVec.getLsbD_xor]
  rintro ⟨hi, hxor⟩
  have hbit := congrArg (BitVec.getLsbD · i) h
  simp only [getLsbD_and_not _ _ hi] at hbit
  refine ⟨hi, ?_⟩
  by_contra he
  simp_all

/-- R157: two codewords differ in three positions, so with at most two erased only the one encoded matches. -/
theorem matchesOf_of_popcount_le_two {e : Mask} (he : popcount e ≤ 2) (d : BitVec 4) :
    matchesOf (encBits d &&& ~~~e) e = [encBits d] := by
  rw [← List.perm_singleton, List.perm_ext_iff_of_nodup (nodup_matchesOf _ _) (List.nodup_singleton _)]
  intro w
  rw [mem_matchesOf_iff, List.mem_singleton]
  constructor
  · rintro ⟨⟨d', rfl⟩, hagree⟩
    by_contra hne
    have hfar := three_le_distance (fun hd => hne (congrArg encBits hd))
    have hnear := popcount_xor_le_of_agrees hagree
    omega
  · rintro rfl
    exact ⟨⟨d, rfl⟩, rfl⟩

/-- R128: the syndrome number of a codeword with one flipped bit. -/
theorem number_flip (d : BitVec 4) {i : Nat} (hi : i < 7) :
    number (encBits d ^^^ bitAt i) = BitVec.ofNat 3 (i + 1) := by
  apply BitVec.eq_of_toNat_eq
  rw [number_eq_syndromeNumber, toNat_syndromeNumber, synVal_flip d hi, BitVec.toNat_ofNat, BitVec.toNat_ofNat]
  omega

/-- R142: the 1-based index of a position names it. -/
theorem index_ne_zero : ∀ i < 7, BitVec.ofNat 3 (i + 1) ≠ 0 := by decide

theorem toNat_index_sub_one : ∀ i < 7, (BitVec.ofNat 3 (i + 1)).toNat - 1 = i := by decide

/-- R142: flipping a position again gives the word back. -/
theorem flipped_flip (w : Mask) {i : Nat} (hi : i < 7) :
    flipped (w ^^^ bitAt i) (BitVec.ofNat 3 (i + 1)) = w := by
  rw [flipped, if_neg (index_ne_zero i hi), toNat_index_sub_one i hi, BitVec.xor_assoc, BitVec.xor_self,
    BitVec.xor_zero]

/-- Settles O46: a flip's index is its syndrome number, and at most two erasures leave one matching codeword. -/
theorem decodingUndoesEncoding : Obligations.DecodingUndoesEncoding := by
  unfold Obligations.DecodingUndoesEncoding
  intro d s
  refine ⟨_, exec_enc d s, ?_⟩
  rw [State.commit_res, resVal_packRes]
  refine ⟨?clean, fun i hi => ?flipped, fun i j hi hj => ?erased⟩
  case clean =>
    rw [exec_dec_of_no_erasure, (number_eq_zero_iff _).2 ⟨d, rfl⟩, flipped, if_pos rfl, dataField_encBits,
      if_pos rfl]
  case flipped =>
    have hne : number (encBits d ^^^ bitAt i) ≠ 0 := by
      rw [number_flip d hi]
      exact index_ne_zero i hi
    rw [exec_dec_of_no_erasure, if_neg hne, number_flip d hi, flipped_flip _ hi, dataField_encBits]
  case erased =>
    have hcount : ∀ i < 7, ∀ j < 7, bitAt i ||| bitAt j ≠ 0 ∧ popcount (bitAt i ||| bitAt j) ≤ 2 := by decide
    obtain ⟨hne, hle⟩ := hcount i hi j hj
    rw [exec_dec_of_erasure (canonical_and_not _ _) hne, matchesOf_of_popcount_le_two hle, searchRes,
      dataField_encBits, searchStat]

end Sys2Proof.Machine
end

section
/-! PROOFS of the obligations of spec/44_host_framer.md: the stream an encoded message gives (R181, R182), and blocks spread
over several cores (R192). -/

namespace Sys2Proof.Machine

open Sys2Proof.Claims

/-! ## The result of a legal command (R23, R180) -/

/-- R23: what a legal word writes to RES, from whatever state; here from the state after reset. -/
def commandResult (w : Word) : Word :=
  match executeWord w State.reset with
  | .next t => t.res
  | _ => 0

/-- R23, R180: after a reset a legal word gives its result, whatever the core did before. -/
theorem runBlock_of_legal {w : Word} (h : legal w = true) {s : State} (hs : s.wasReset = true) :
    ∃ t, runBlock w s = some (commandResult w, t) ∧ t.wasReset = true := by
  obtain ⟨op, val, era, code, pos, count, hx⟩ := executeWord_of_legal h
  obtain ⟨t, ht, hreset, -, hrun⟩ := runBlock_eq w s hs
  rw [hx] at ht
  cases ht
  exact ⟨_, by simpa only [commandResult, hx, State.commit_res] using hrun, hreset⟩

/-- R100: the result of the word of ENC is the codeword. -/
theorem commandResult_enc (d : BitVec 4) : commandResult (encode (.enc d)) = packRes opEnc (encBits d) 0 := by
  rw [commandResult, executeWord, decode_encode rfl]
  rfl

/-- R181, R185: a run of legal words gives the symbols of their results in order. -/
theorem runBlocks_of_legal (kind : ResultKind) {words : List Word} (h : ∀ w ∈ words, legal w = true) {s : State}
    (hs : s.wasReset = true) :
    ∃ t, runBlocks kind words s = some (words.flatMap fun w => resultSymbols kind (commandResult w), t) := by
  obtain ⟨t, ht, -⟩ := runBlocks_of_results kind commandResult words (fun w hw _ hs => runBlock_of_legal (h w hw) hs) s hs
  exact ⟨t, ht⟩

/-! ## The command words of a stream (R78, R181, R185) -/

@[simp] theorem parseAll_bitText (bits : List Bool) : parseAll bitOfChar (bitText bits) = some bits :=
  parseAll_map bitOfChar _ bitOfChar_charOfSymbol bits

@[simp] theorem parseAll_symbolText (symbols : List Symbol) : parseAll symbolOfChar (symbolText symbols) = some symbols :=
  parseAll_map symbolOfChar _ symbolOfChar_charOfSymbol symbols

/-- R74, R78: the word of a nibble is legal. -/
theorem legal_encWord (n : Nibble) : legal (encWord n) = true := legal_encode rfl

/-- R74, R78: the word of a block is legal, since the spelling of a block is canonical. -/
theorem legal_decWord (b : Block) : legal (decWord b) = true := legal_encode (canonical_spelling_block b)

/-- R181: group `g + 1` of a message is group `g` of what follows its first four bits. -/
theorem groupNibble_succ (a b c d : Bool) (rest : List Bool) (g : Nat) :
    groupNibble (a :: b :: c :: d :: rest) (g + 1) = groupNibble rest g := rfl

/-- R181: the words of a message are the words of ENC of its groups, in order. -/
theorem map_encWord_nibbleGroups (bits : List Bool) :
    (nibbleGroups bits).map encWord =
      (List.range ((bits.length + 3) / 4)).map fun g => encode (.enc (groupNibble bits g)) := by
  induction bits using nibbleGroups.induct with
  | case1 => rfl
  | case2 a => revert a; decide
  | case3 a b => revert a b; decide
  | case4 a b c => revert a b c; decide
  | case5 a b c d rest ih =>
    have hlen : ((a :: b :: c :: d :: rest).length + 3) / 4 = (rest.length + 3) / 4 + 1 := by
      simp only [List.length_cons]
      omega
    rw [nibbleGroups, List.map_cons, ih, hlen, List.range_succ_eq_map, List.map_cons, List.map_map]
    simp only [Function.comp_def, groupNibble_succ]
    rfl

/-- R185: a stream of whole blocks is split into one word for every seven symbols. -/
theorem length_map_decWord {symbols : List Symbol} (h : symbols.length % 7 = 0) :
    ((blockGroups symbols).map decWord).length = symbols.length / 7 := by
  rw [List.length_map]
  exact blockGroups_length _ _ (by omega)

/-- R184: a nonempty stream of whole blocks has a length that decodes. -/
theorem decodeLengthOk_symbolText {symbols : List Symbol} (hne : symbols ≠ []) (h : symbols.length % 7 = 0) :
    decodeLengthOk (symbolText symbols).length = true := by
  simp [decodeLengthOk, symbolText, hne, h]

/-! ## The stream of an encoded message (R182) -/

/-- Where every element gives `k` symbols, those of element `g` stand at `k * g` and on. -/
theorem getElem?_flatMap_of_length {α β : Type} {f : α → List β} {k : Nat} (hf : ∀ x, (f x).length = k) (xs : List α)
    (g : Nat) {i : Nat} (hi : i < k) : (xs.flatMap f)[k * g + i]? = xs[g]?.bind fun x => (f x)[i]? := by
  induction xs generalizing g with
  | nil => simp
  | cons x xs ih =>
    cases g with
    | zero => simp [List.getElem?_append_left, hf, hi]
    | succ g =>
      have hidx : k * (g + 1) + i - k = k * g + i := by rw [Nat.mul_succ]; omega
      rw [List.flatMap_cons, List.getElem?_append_right (by rw [hf, Nat.mul_succ]; omega), hf, hidx, ih,
        List.getElem?_cons_succ]

/-- R190: symbol `i` of a codeword's text is bit `i` of the result's VAL. -/
theorem getElem?_codewordSymbols (r : Word) {i : Nat} (hi : i < 7) :
    (codewordSymbols r)[i]? = some (.bit ((resVal r).getLsbD i)) := by
  interval_cases i <;> rfl

/-- R190: a codeword's text has no erased symbol. -/
theorem ne_erased_of_mem_codewordSymbols {r : Word} {x : Symbol} (h : x ∈ codewordSymbols r) : x ≠ .erased := by
  rintro rfl
  simp [codewordSymbols] at h

/-- R181: the symbols of the codeword of nibble `d`. -/
def encodedGroup (d : BitVec 4) : List Symbol := codewordSymbols (packRes opEnc (encBits d) 0)

theorem length_encodedGroup (d : BitVec 4) : (encodedGroup d).length = 7 := rfl

/-- R181, R182: after a reset the framer gives the codewords of a message's groups, in order. -/
theorem encodeMessage_bitText (bits : List Bool) {s : State} (hs : s.wasReset = true) :
    ∃ t, encodeMessage (bitText bits) s =
      .output ((List.range ((bits.length + 3) / 4)).flatMap fun g => encodedGroup (groupNibble bits g)) t := by
  obtain ⟨t, ht⟩ := runBlocks_of_legal .codeword (words := (nibbleGroups bits).map encWord)
    (by simp [legal_encWord]) hs
  simp only [map_encWord_nibbleGroups, List.flatMap_map, commandResult_enc, resultSymbols] at ht
  exact ⟨t, by simp only [encodeMessage, parseAll_bitText, map_encWord_nibbleGroups, ht, streamResult, encodedGroup]⟩

/-- Settles O54: the output is the text of one codeword for each group, seven symbols each. -/
theorem encodedStreamLength : Obligations.EncodedStreamLength := by
  unfold Obligations.EncodedStreamLength
  refine ⟨fun bits s hs => ?message, fun s => rfl⟩
  obtain ⟨t, ht⟩ := encodeMessage_bitText bits hs
  refine ⟨_, t, ht, ?length, fun x hx => ?bits, fun g i hg hi => ?symbol⟩
  case length => simp [List.length_flatMap, length_encodedGroup, Nat.mul_comm]
  case bits =>
    obtain ⟨g, -, hx⟩ := List.mem_flatMap.1 hx
    exact ne_erased_of_mem_codewordSymbols hx
  case symbol =>
    rw [getElem?_flatMap_of_length (fun g => length_encodedGroup (groupNibble bits g)) _ _ hi, List.getElem?_range hg,
      Option.bind_some, encodedGroup, getElem?_codewordSymbols _ hi, resVal_packRes]

/-! ## Blocks spread over several cores (R192) -/

/-- R36, R230: core `k` of the platform exists and has been reset. -/
def CoreReady (p : Platform) (k : Nat) : Prop := ∃ c, p[k]? = some c ∧ c.wasReset = true

/-- A core that moves to a state after a reset leaves every ready core ready. -/
theorem CoreReady.set {p : Platform} {j : Nat} (h : CoreReady p j) (k : Nat) {t : State} (ht : t.wasReset = true) :
    CoreReady (p.set k t) j := by
  obtain ⟨c, hc, hreset⟩ := h
  by_cases hkj : k = j
  case pos =>
    obtain ⟨hlt, -⟩ := List.getElem?_eq_some_iff.1 hc
    exact ⟨t, by simp [hkj, hlt], ht⟩
  case neg => exact ⟨c, by rw [List.getElem?_set_ne hkj, hc], hreset⟩

/-- R192: a legal word gives its result on every ready core, and every ready core stays ready. -/
theorem runBlockOn_of_legal {w : Word} (h : legal w = true) {p : Platform} {k : Nat} (hk : CoreReady p k) :
    ∃ q, runBlockOn k w p = some (commandResult w, q) ∧ ∀ j, CoreReady p j → CoreReady q j := by
  obtain ⟨c, hc, hreset⟩ := hk
  obtain ⟨t, hrun, ht⟩ := runBlock_of_legal h hreset
  exact ⟨p.set k t, by simp only [runBlockOn, hc, hrun], fun j hj => hj.set k ht⟩

/-- R192: the result of block `g` of a stream with these command words. -/
def blockResult (words : List Word) (g : Nat) : Word := commandResult (words.getD g 0)

/-- R192: a plan of blocks of the stream on ready cores gives each job's block with that block's result. -/
theorem runJobs_of_legal {words : List Word} (h : ∀ w ∈ words, legal w = true) (plan : List Job) (p : Platform)
    (hblocks : ∀ j ∈ plan, j.block < words.length) (hcores : ∀ j ∈ plan, CoreReady p j.core) :
    ∃ q, runJobs words plan p = some ((plan.map Job.block).map fun g => (g, blockResult words g), q) := by
  induction plan generalizing p with
  | nil => exact ⟨p, rfl⟩
  | cons j plan ih =>
    simp only [List.forall_mem_cons] at hblocks hcores
    obtain ⟨hj, hblocks⟩ := hblocks
    obtain ⟨hcore, hcores⟩ := hcores
    obtain ⟨q, hrun, hready⟩ := runBlockOn_of_legal (h _ (List.getElem_mem hj)) hcore
    obtain ⟨u, hu⟩ := ih q hblocks fun i hi => hready _ (hcores i hi)
    exact ⟨u, by simp [runJobs, hrun, hu, blockResult, hj]⟩

/-- R192: where every block has its result, the results are joined to the symbols of the words' results in order. -/
theorem joinResults_of_mem (kind : ResultKind) (words : List Word) {blocks : List Nat}
    (h : ∀ g, g < words.length → g ∈ blocks) :
    joinResults kind words.length (blocks.map fun g => (g, blockResult words g)) =
      words.flatMap fun w => resultSymbols kind (commandResult w) := by
  have hwords : words = (List.range words.length).map fun g => words.getD g 0 :=
    List.ext_getElem (by simp) fun g hg _ => by simp [hg]
  conv_rhs => rw [hwords, List.flatMap_map]
  refine List.flatMap_congr fun g hg => ?_
  rw [List.lookup_graph _ (h g (List.mem_range.1 hg))]
  rfl

/-- R192: every plan that runs each of the legal words once, on ready cores, gives what one reset core gives. -/
theorem runSpread_runBlocks_same_output (kind : ResultKind) {words : List Word} (h : ∀ w ∈ words, legal w = true)
    {plan : List Job} {p : Platform} {s : State} (hperm : (plan.map Job.block).Perm (List.range words.length))
    (hcores : ∀ j ∈ plan, CoreReady p j.core) (hs : s.wasReset = true) :
    ∃ out q t, runSpread kind words plan p = some (out, q) ∧ runBlocks kind words s = some (out, t) := by
  obtain ⟨t, ht⟩ := runBlocks_of_legal kind h hs
  have hmem : ∀ g, g ∈ plan.map Job.block ↔ g < words.length := fun g => hperm.mem_iff.trans List.mem_range
  obtain ⟨q, hq⟩ := runJobs_of_legal h plan p (fun j hj => (hmem _).1 (List.mem_map_of_mem hj)) hcores
  refine ⟨_, q, t, ?_, ht⟩
  simp only [runSpread, hq, joinResults_of_mem kind words fun g => (hmem g).2]

/-- Settles O60: each block's result depends on its word alone, and the results are joined in block order. -/
theorem everyScheduleGivesTheSameOutput : Obligations.EveryScheduleGivesTheSameOutput := by
  unfold Obligations.EveryScheduleGivesTheSameOutput
  refine ⟨fun bits plan p s hperm hcores hs => ?encode, fun symbols plan p s hne hlen hperm hcores hs => ?decode⟩
  case encode =>
    rw [← nibbleGroups_length, ← List.length_map (f := encWord)] at hperm
    obtain ⟨out, q, t, hq, ht⟩ := runSpread_runBlocks_same_output .codeword (by simp [legal_encWord]) hperm hcores hs
    exact ⟨out, q, t, by simp only [encodeMessageOn, parseAll_bitText, hq, streamResult],
      by simp only [encodeMessage, parseAll_bitText, ht, streamResult]⟩
  case decode =>
    rw [← length_map_decWord hlen] at hperm
    obtain ⟨out, q, t, hq, ht⟩ := runSpread_runBlocks_same_output .partialNibble (by simp [legal_decWord]) hperm hcores hs
    have hok := decodeLengthOk_symbolText hne hlen
    exact ⟨out, q, t, by simp only [decodeStreamOn, hok, if_true, parseAll_symbolText, hq, streamResult],
      by simp only [decodeStream, hok, if_true, parseAll_symbolText, ht, streamResult]⟩

end Sys2Proof.Machine
end

section
/-! PROOFS of the obligations of spec/60_exceptions.md: what an illegal command word writes (R202). -/

namespace Sys2Proof.Machine

/-- R202: the STAT word of an illegal command is its raw OP field above the code 0xF, every other bit 0. -/
theorem packStat_illegal : ∀ op : BitVec 4,
    packStat 0 0 op (codeBits .illegal) = ((op ++ 0xF#4 : BitVec 8).zeroExtend 32) := by
  decide

/-- Settles O16: the step is the command on the state with the port free, and an illegal word is rejected there. -/
theorem illegalWordSetsStatOnly : Obligations.IllegalWordSetsStatOnly := by
  unfold Obligations.IllegalWordSetsStatOnly
  intro s w hquiet hflight hillegal
  rw [step_of_inFlight hquiet hflight, executeWord_of_illegal hillegal, State.rejectCommand, packStat_illegal,
    State.release, State.dropReset]

end Sys2Proof.Machine
end

section
/-! PROOFS of the obligations of spec/70_reset_and_hazards.md: the reset event (R230), and a CMD write that arrives at the
same time (R232). -/

namespace Sys2Proof.Machine

/-- R232: a cut-off write moves its host at most; the core's registers and its command port stay as they are. -/
theorem cutOffWrite_moves_hosts_only (s : State) :
    ∃ drivers schedule draws,
      s.cutOffWrite = { s with drivers := drivers, schedule := schedule, draws := draws } := by
  rcases cutOffWrite_cases s with h | ⟨d, st, -, -, -, h⟩
  · exact ⟨_, _, _, h⟩
  · exact ⟨_, _, _, h⟩

/-- R230 to R232: a step in which a reset event arrives answers with the core reset, whatever the core and the hosts were
doing. An event that comes alone moves no host; one that comes with a transaction can only move hosts besides. -/
theorem step_of_reset {s : State} (h : s.resetNow ≠ .quiet) :
    ∃ drivers schedule draws,
      step s = .next { s.dropReset.applyReset with drivers := drivers, schedule := schedule, draws := draws } ∧
        (s.resetNow = .alone → drivers = s.drivers) := by
  cases hnow : s.resetNow with
  | quiet => exact absurd hnow h
  | alone =>
    have hstep : step s = .next s.dropReset.applyReset := by simp only [step, cycle, hnow]
    exact ⟨_, _, _, hstep, fun _ => rfl⟩
  | withWrite =>
    have hstep : step s = .next s.dropReset.resetWithWrite := by simp only [step, cycle, hnow]
    rw [hstep, State.resetWithWrite]
    split
    · obtain ⟨drivers, schedule, draws, hcut⟩ := cutOffWrite_moves_hosts_only s.dropReset.applyReset
      exact ⟨drivers, schedule, draws, by rw [hcut], nofun⟩
    · exact ⟨_, _, _, rfl, nofun⟩

/-- R27, R29: the reset value of STAT has code NONE. -/
theorem statCode_zero : statCode 0 = codeBits .none := by decide

/-- Settles O2: `RST` is its host's statement, and a reset event that arrives is taken before anything else in its step. -/
theorem resetEventClearsRegisters : Obligations.ResetEventClearsRegisters := by
  unfold Obligations.ResetEventClearsRegisters
  refine ⟨fun s d hrst => ?rst, fun s hreset => ?event⟩
  case rst => exact ⟨_, step_of_executes hrst, rfl, rfl, statCode_zero, rfl, rfl, rfl⟩
  case event =>
    obtain ⟨drivers, schedule, draws, hstep, halone⟩ := step_of_reset hreset
    exact ⟨_, hstep, rfl, rfl, statCode_zero, rfl, rfl, halone⟩

/-- Settles O4: the reset event decides what the step leaves in the core, whichever statement the host is at. -/
theorem resetBeatsSimultaneousWrite : Obligations.ResetBeatsSimultaneousWrite := by
  unfold Obligations.ResetBeatsSimultaneousWrite
  intro s d e hnow _ _ _
  obtain ⟨drivers, schedule, draws, hstep, -⟩ := step_of_reset (s := s) (by simp [hnow])
  exact ⟨_, hstep, rfl, rfl, rfl⟩

end Sys2Proof.Machine
end

section
/-! PROOFS of further obligations of spec/30_encoding.md: the encoder and the decoder are inverse (R76), and the example
words (R78, R82). -/

namespace Sys2Proof

open Sys2Proof.Machine

/-- Settles O20: the word of a well-formed instruction is split into the fields it was put together from. -/
theorem decodeOfEncode : Obligations.DecodeOfEncode := fun _ h => decode_encode h

/-- Settles O21: a decoded word's reserved bits are 0, so it is put together from its fields. -/
theorem encodeOfDecode : Obligations.EncodeOfDecode := fun _ _ h => encode_decode h

/-- Settles O23, word by word. -/
theorem knownWordsDecode : Obligations.KnownWordsDecode := by
  unfold Obligations.KnownWordsDecode
  refine ⟨?_, ?_, ?_, ?_, ?_, ?_, ?_, ?_⟩ <;> rfl

end Sys2Proof
end

section
/-! PROOFS of further obligations of spec/43_decode.md: how many codewords match a block (R152), the order of the
candidates (R153), and two flips (R154). -/

namespace Sys2Proof.Machine

open Sys2Proof.Claims

/-! ## The syndrome number is linear (R128) -/

theorem number_xor (x y : Mask) : number (x ^^^ y) = number x ^^^ number y := by
  apply BitVec.eq_of_toNat_eq
  simp only [number_eq_syndromeNumber, BitVec.toNat_xor, toNat_syndromeNumber, synVal_xor]

theorem number_bitAt {i : Nat} (hi : i < 7) : number (bitAt i) = BitVec.ofNat 3 (i + 1) := by
  revert i
  decide

theorem number_zero : number 0#7 = 0#3 := by decide

/-! ## The span of the erased indices (R152) -/

/-- The positions that are 1 in a field are all listed. -/
def SupportedOn (x : Mask) (ps : List Nat) : Prop := ∀ i, x.getLsbD i = true → i ∈ ps

theorem supportedOn_nil_iff (x : Mask) : SupportedOn x [] ↔ x = 0#7 := by
  constructor
  · intro h
    apply BitVec.eq_of_getLsbD_eq
    intro i _
    simpa using h i
  · rintro rfl i hi
    simp at hi

/-- Flipping position `i` does not matter where `i` is listed. -/
theorem SupportedOn.xor_bitAt {x : Mask} {i : Nat} {rest : List Nat} (h : SupportedOn x (i :: rest)) :
    SupportedOn (x ^^^ bitAt i) (i :: rest) := by
  intro j hj
  have hj7 : j < 7 := BitVec.lt_of_getLsbD hj
  rw [BitVec.getLsbD_xor, getLsbD_bitAt i hj7] at hj
  by_cases hij : i = j
  · exact hij ▸ List.mem_cons_self
  · exact h j (by simpa [hij] using hj)

theorem SupportedOn.of_cons {x : Mask} {i : Nat} {rest : List Nat} (h : SupportedOn x (i :: rest))
    (hi : x.getLsbD i = false) : SupportedOn x rest := fun j hj =>
  (List.mem_cons.1 (h j hj)).resolve_left fun hji => by simp [← hji, hj] at hi

theorem SupportedOn.cons {x : Mask} {rest : List Nat} (h : SupportedOn x rest) (i : Nat) : SupportedOn x (i :: rest) :=
  fun j hj => List.mem_cons_of_mem i (h j hj)

/-- R152: the XOR combinations of the listed indices are the syndrome numbers of the words with bits at the listed
positions only. -/
theorem mem_combinations_iff (ps : List Nat) (hps : ∀ i ∈ ps, i < 7) (y : BitVec 3) :
    y ∈ combinations ps ↔ ∃ x, SupportedOn x ps ∧ number x = y := by
  induction ps generalizing y with
  | nil =>
    simp only [combinations, List.mem_singleton, supportedOn_nil_iff, exists_eq_left, number_zero]
    exact eq_comm
  | cons i rest ih =>
    obtain ⟨hi, hrest⟩ := List.forall_mem_cons.1 hps
    have hflip (x : Mask) : number (x ^^^ bitAt i) = number x ^^^ BitVec.ofNat 3 (i + 1) := by
      rw [number_xor, number_bitAt hi]
    simp only [combinations, List.mem_append, List.mem_map, ih hrest]
    constructor
    · rintro (⟨x, hx, rfl⟩ | ⟨_, ⟨x, hx, rfl⟩, rfl⟩)
      · exact ⟨x, hx.cons i, rfl⟩
      · exact ⟨x ^^^ bitAt i, (hx.cons i).xor_bitAt, hflip x⟩
    · rintro ⟨x, hx, rfl⟩
      cases hxi : x.getLsbD i with
      | false => exact .inl ⟨x, hx.of_cons hxi, rfl⟩
      | true =>
        have hclear : (x ^^^ bitAt i).getLsbD i = false := by
          rw [BitVec.getLsbD_xor, getLsbD_bitAt i hi, hxi]
          simp
        refine .inr ⟨_, ⟨x ^^^ bitAt i, hx.xor_bitAt.of_cons hclear, rfl⟩, ?_⟩
        rw [hflip, BitVec.xor_assoc, BitVec.xor_self, BitVec.xor_zero]

theorem canonical_zero_left (e : Mask) : canonical 0#7 e = true := by simp [canonical]

/-- A word whose bits are all erased positions. -/
theorem supportedOn_erased_iff (x e : Mask) :
    SupportedOn x ((List.range 7).filter fun i => e.getLsbD i) ↔ x &&& ~~~e = 0#7 := by
  have hbits := and_not_eq_iff (v := 0#7) (e := e) (canonical_zero_left e) x
  rw [hbits]
  constructor
  · intro h i _
    cases hx : x.getLsbD i with
    | false => exact .inr (by simp)
    | true => exact .inl (List.mem_filter.1 (h i hx)).2
  · intro h i hx
    have hi : i < 7 := BitVec.lt_of_getLsbD hx
    refine List.mem_filter.2 ⟨List.mem_range.2 hi, (h i hi).resolve_right ?_⟩
    simp [hx, -BitVec.getLsbD_eq_getElem]

theorem mem_numbers (y : BitVec 3) : y ∈ (List.range 8).map (BitVec.ofNat 3) :=
  List.mem_map.2 ⟨y.toNat, List.mem_range.2 y.isLt, by simp⟩

/-- R152: the span of the erased indices holds the syndrome numbers of the words with erased positions only. -/
theorem mem_spanOf_iff (e : Mask) (y : BitVec 3) : y ∈ spanOf e ↔ ∃ x, x &&& ~~~e = 0#7 ∧ number x = y := by
  have hps : ∀ i ∈ (List.range 7).filter fun i => e.getLsbD i, i < 7 := fun i hi =>
    List.mem_range.1 (List.mem_filter.1 hi).1
  simp only [spanOf, List.mem_filter, mem_numbers, true_and, List.contains_iff_mem, mem_combinations_iff _ hps,
    supportedOn_erased_iff]

theorem nodup_spanOf (e : Mask) : (spanOf e).Nodup := by
  have hnumbers : ((List.range 8).map (BitVec.ofNat 3)).Nodup := by decide
  exact hnumbers.filter _

/-! ## Counting the words that agree with a block (R144, R152) -/

/-- R144: the words that agree with `v` outside the erased positions and have syndrome number `y`. -/
def agreeing (v e : Mask) (y : BitVec 3) : Finset Mask :=
  Finset.univ.filter fun w => w &&& ~~~e = v ∧ number w = y

theorem mem_agreeing_iff (v e w : Mask) (y : BitVec 3) : w ∈ agreeing v e y ↔ w &&& ~~~e = v ∧ number w = y := by
  simp [agreeing]

theorem xor_and_not (w u e : Mask) : (w ^^^ u) &&& ~~~e = (w &&& ~~~e) ^^^ (u &&& ~~~e) := by
  ext i
  simp [Bool.and_xor_distrib_right]

/-- R128: adding a word moves the words that agree with one block to those that agree with another, one to one. -/
theorem card_agreeing_xor (v e u : Mask) (y : BitVec 3) :
    (agreeing (v ^^^ (u &&& ~~~e)) e (y ^^^ number u)).card = (agreeing v e y).card := by
  have hinv : Function.Involutive (· ^^^ u : Mask → Mask) := fun w => by
    simp only [BitVec.xor_assoc, BitVec.xor_self, BitVec.xor_zero]
  refine (Finset.card_equiv hinv.toPerm fun w => ?_).symm
  rw [mem_agreeing_iff, mem_agreeing_iff, Function.Involutive.coe_toPerm, number_xor, xor_and_not,
    BitVec.xor_left_inj, BitVec.xor_left_inj]

theorem and_not_of_canonical {v e : Mask} (h : canonical v e = true) : v &&& ~~~e = v :=
  (and_not_eq_iff h v).2 fun _ _ => .inr rfl

/-- R145: the matching codewords of a canonical block are as many as the words of erased positions that have the
syndrome number of the received bits. -/
theorem length_matchesOf_eq_card {v e : Mask} (h : canonical v e = true) :
    (matchesOf v e).length = (agreeing 0#7 e (number v)).card := by
  have hset : (matchesOf v e).toFinset = agreeing v e 0#3 := by
    ext w
    rw [List.mem_toFinset, mem_matchesOf_iff, mem_agreeing_iff, ← number_eq_zero_iff]
    exact and_comm
  have hmove := card_agreeing_xor 0#7 e v (number v)
  rw [BitVec.xor_self, and_not_of_canonical h, BitVec.zero_xor] at hmove
  rw [← List.toFinset_card_of_nodup (nodup_matchesOf v e), hset, ← hmove]

/-- R152: every syndrome number in the span comes from equally many words of erased positions. -/
theorem card_agreeing_of_mem_spanOf {e : Mask} {y : BitVec 3} (h : y ∈ spanOf e) :
    (agreeing 0#7 e y).card = (agreeing 0#7 e 0#3).card := by
  obtain ⟨u, hu, rfl⟩ := (mem_spanOf_iff e y).1 h
  have hmove := card_agreeing_xor 0#7 e u 0#3
  rwa [hu, BitVec.xor_self, BitVec.zero_xor] at hmove

/-- R152: a syndrome number outside the span comes from none. -/
theorem agreeing_of_notMem_spanOf {e : Mask} {y : BitVec 3} (h : y ∉ spanOf e) : agreeing 0#7 e y = ∅ :=
  Finset.eq_empty_of_forall_notMem fun w hw => h ((mem_spanOf_iff e y).2 ⟨w, (mem_agreeing_iff _ _ _ _).1 hw⟩)

/-- R11: the erased positions of a block are the 1 bits of its ERA field. -/
theorem length_filter_isErased (v e : Mask) :
    ((blockSymbols (blockOperand v e)).filter isErased).length = popcount e := by
  have hsymbols : blockSymbols (blockOperand v e) = (List.range 7).map (operandSymbol v e) := rfl
  rw [hsymbols, List.filter_map, List.length_map, popcount]
  simp only [Function.comp_def, isErased_operandSymbol]

/-- R144: the words of erased positions are the candidates of the block that is 0 elsewhere. -/
theorem card_erased_words (e : Mask) : (Finset.univ.filter fun w : Mask => w &&& ~~~e = 0#7).card = 2 ^ popcount e := by
  have himage : (Finset.univ.filter fun w : Mask => w &&& ~~~e = 0#7).image (blockOperand · 0) =
      (candidates (blockOperand 0#7 e)).toFinset := by
    ext c
    simp only [Finset.mem_image, Finset.mem_filter, Finset.mem_univ, true_and, List.mem_toFinset,
      ← mem_candidates_blockOperand_iff (canonical_zero_left e)]
    constructor
    · rintro ⟨w, hw, rfl⟩
      exact hw
    · intro hc
      have hblock := blockOperand_blockVal_of_no_erasure (hasErasure_of_mem_candidates hc)
      exact ⟨blockVal c, hblock.symm ▸ hc, hblock⟩
  rw [← Finset.card_image_of_injective _ blockOperand_zero_injective, himage,
    List.toFinset_card_of_nodup (nodup_candidates _), length_candidates, length_filter_isErased]

/-- R152: the words of erased positions, sorted by their syndrome numbers. -/
theorem length_spanOf_mul_card (e : Mask) : (spanOf e).length * (agreeing 0#7 e 0#3).card = 2 ^ popcount e := by
  have hmaps : ((Finset.univ.filter fun w : Mask => w &&& ~~~e = 0#7 : Finset Mask) : Set Mask).MapsTo number
      (spanOf e).toFinset := fun w hw => by
    simp only [Finset.coe_filter, Finset.mem_univ, true_and, Set.mem_ofPred_eq] at hw
    simpa using (mem_spanOf_iff e _).2 ⟨w, hw, rfl⟩
  rw [← card_erased_words, Finset.card_eq_sum_card_fiberwise hmaps, ← List.toFinset_card_of_nodup (nodup_spanOf e)]
  refine (Finset.sum_const_nat fun y hy => ?_).symm
  rw [Finset.filter_filter, ← card_agreeing_of_mem_spanOf (List.mem_toFinset.1 hy)]
  rfl

/-- R152: the span has `2 ^ rho` elements, and a syndrome number in it comes from `2 ^ (|E| - rho)` words. -/
theorem exists_rank (e : Mask) :
    ∃ rho, (spanOf e).length = 2 ^ rho ∧ rho ≤ popcount e ∧ (agreeing 0#7 e 0#3).card = 2 ^ (popcount e - rho) := by
  have hmul := length_spanOf_mul_card e
  obtain ⟨rho, hle, hrho⟩ := (Nat.dvd_prime_pow Nat.prime_two).1 ⟨_, hmul.symm⟩
  refine ⟨rho, hrho, hle, ?_⟩
  rw [hrho] at hmul
  rw [← Nat.pow_div hle (by decide), ← hmul, Nat.mul_div_cancel_left _ (by positivity)]

/-- R152: how many codewords match a canonical block. -/
theorem length_matchesOf {v e : Mask} (h : canonical v e = true) :
    (matchesOf v e).length = if number v ∈ spanOf e then (agreeing 0#7 e 0#3).card else 0 := by
  rw [length_matchesOf_eq_card h]
  split
  case isTrue hmem => exact card_agreeing_of_mem_spanOf hmem
  case isFalse hmem => rw [agreeing_of_notMem_spanOf hmem, Finset.card_empty]

/-- R151: a search finds at most the 16 codewords. -/
theorem length_matchesOf_le (v e : Mask) : (matchesOf v e).length ≤ 16 := List.length_filter_le _ codebook

/-- R151: STAT.MATCHES is the number of codewords found. -/
theorem statMatches_searchStat {ws : List Mask} (h : ws.length ≤ 16) :
    (statMatches (searchStat ws)).toNat = ws.length := by
  match ws, h with
  | [], _ => simp [searchStat]
  | [_], _ => simp [searchStat]
  | _ :: _ :: rest, h =>
    rw [searchStat, statMatches_packStat, BitVec.toNat_ofNat, Nat.mod_eq_of_lt (by omega)]
    all_goals simp

/-- Settles O40: the codewords that match are counted by the words of erased positions with the received bits' syndrome
number, and these are equally many for every number in the span. -/
theorem matchCountFormula : Obligations.MatchCountFormula := by
  unfold Obligations.MatchCountFormula
  intro v e s h he
  obtain ⟨rho, hspan, -, hcard⟩ := exists_rank e
  refine ⟨_, rho, exec_dec_of_erasure h he s, hspan, ?_⟩
  rw [statMatches_searchStat (length_matchesOf_le v e), length_matchesOf h, hcard]

/-! ## The outcomes by the number of erasures (R152) -/

/-- The word with one erased position set has erased positions only. -/
theorem bitAt_and_not {e : Mask} {i : Nat} (he : e.getLsbD i = true) : bitAt i &&& ~~~e = 0#7 := by
  rw [and_not_eq_iff (canonical_zero_left e)]
  intro j hj
  rw [getLsbD_bitAt i hj]
  by_cases hij : i = j
  · exact .inl (hij ▸ he)
  · exact .inr (by simp [hij])

/-- R152: the span holds 0 and the index of every erased position. -/
theorem popcount_lt_length_spanOf (e : Mask) : popcount e < (spanOf e).length := by
  have hnodup : (0 :: ((List.range 7).filter fun i => e.getLsbD i).map fun i => BitVec.ofNat 3 (i + 1)).Nodup := by
    have hall : (0 :: (List.range 7).map fun i => BitVec.ofNat 3 (i + 1)).Nodup := by decide
    exact hall.sublist ((List.filter_sublist.map _).cons_cons _)
  have hsub : (0 :: ((List.range 7).filter fun i => e.getLsbD i).map fun i => BitVec.ofNat 3 (i + 1)) ⊆ spanOf e := by
    intro y hy
    rw [mem_spanOf_iff]
    rcases List.mem_cons.1 hy with rfl | hy
    · exact ⟨0, by simp, number_zero⟩
    · obtain ⟨i, hi, rfl⟩ := List.mem_map.1 hy
      obtain ⟨hi, hei⟩ := List.mem_filter.1 hi
      have hi7 : i < 7 := List.mem_range.1 hi
      exact ⟨bitAt i, bitAt_and_not hei, number_bitAt hi7⟩
  have hle := (List.subperm_of_subset hnodup hsub).length_le
  simpa [popcount] using hle

theorem length_spanOf_le (e : Mask) : (spanOf e).length ≤ 8 := List.length_filter_le _ _

/-- R152: a span of eight elements holds every syndrome number. -/
theorem mem_spanOf_of_length {e : Mask} (h : (spanOf e).length = 8) (y : BitVec 3) : y ∈ spanOf e := by
  have hperm := (List.filter_sublist (l := (List.range 8).map (BitVec.ofNat 3))).eq_of_length h
  rw [spanOf, hperm]
  exact mem_numbers y

/-- R152: four erased indices lie in no smaller span than that of all syndrome numbers. -/
theorem length_spanOf_of_four_le {e : Mask} (h : 4 ≤ popcount e) : (spanOf e).length = 8 := by
  obtain ⟨rho, hrho, -, -⟩ := exists_rank e
  have hlow := popcount_lt_length_spanOf e
  have hhigh := length_spanOf_le e
  rw [hrho] at hlow hhigh ⊢
  have h3 : 2 < rho := (Nat.pow_lt_pow_iff_right (a := 2) (by decide)).1 (by omega)
  have h4 : rho ≤ 3 := (Nat.pow_le_pow_iff_right (a := 2) (by decide)).1 hhigh
  have hrank : rho = 3 := by omega
  rw [hrank]
  rfl

/-- R152: where the span holds every syndrome number, every canonical block has `2 ^ (|E| - 3)` matches. -/
theorem length_matchesOf_of_full_span {v e : Mask} (h : canonical v e = true) (hspan : (spanOf e).length = 8) :
    (matchesOf v e).length = 2 ^ (popcount e - 3) := by
  obtain ⟨rho, hrho, -, hcard⟩ := exists_rank e
  have h3 : rho = 3 := Nat.pow_right_injective (le_refl 2) (hrho.symm.trans hspan)
  rw [length_matchesOf h, if_pos (mem_spanOf_of_length hspan _), hcard, h3]

theorem card_agreeing_zero (e : Mask) : (agreeing 0#7 e 0#3).card = (matchesOf 0#7 e).length := by
  rw [length_matchesOf_eq_card (canonical_zero_left e), number_zero]

/-- R106, R152: with at most two erasures the zero codeword alone has erased positions only. -/
theorem card_agreeing_of_popcount_le_two {e : Mask} (h : popcount e ≤ 2) : (agreeing 0#7 e 0#3).card = 1 := by
  have hzero : encBits 0#4 = 0#7 := by decide
  have hmatch := matchesOf_of_popcount_le_two h 0#4
  rw [hzero, BitVec.zero_and] at hmatch
  rw [card_agreeing_zero, hmatch, List.length_singleton]

/-- R106, R152: with three erasures the codeword of weight 3 with that support does too, where there is one. -/
theorem card_agreeing_of_three {e : Mask} (h : popcount e = 3) :
    (agreeing 0#7 e 0#3).card = if e ∈ supports then 2 else 1 := by
  rw [card_agreeing_zero]
  revert e
  decide

/-- R146 to R148: the code of a search by the number of codewords found. -/
theorem statCode_searchStat_of_length_one {ws : List Mask} (h : ws.length = 1) : statCode (searchStat ws) = 4 := by
  obtain ⟨w, rfl⟩ := List.length_eq_one_iff.1 h
  exact statCode_packStat ..

theorem statCode_searchStat_of_length_zero {ws : List Mask} (h : ws.length = 0) : statCode (searchStat ws) = 5 := by
  rw [List.length_eq_zero_iff.1 h]
  exact statCode_packStat ..

theorem statCode_searchStat_of_two_le {ws : List Mask} (h : 2 ≤ ws.length) : statCode (searchStat ws) = 6 := by
  match ws, h with
  | _ :: _ :: _, _ => exact statCode_packStat ..

theorem popcount_eq_zero_iff (e : Mask) : popcount e = 0 ↔ e = 0 := by
  revert e
  decide

/-- Settles O41: the search finds as many codewords as the span and the codewords of erased positions allow. -/
theorem outcomesByErasureCount : Obligations.OutcomesByErasureCount := by
  unfold Obligations.OutcomesByErasureCount
  intro v e s h
  by_cases he : e = 0
  case pos =>
    subst he
    refine ⟨_, exec_dec_of_no_erasure v s, fun _ => ?_, ?_⟩
    · rw [statCode_packStat]
      split
      · exact .inl rfl
      · exact .inr rfl
    · have hzero := (popcount_eq_zero_iff 0).2 rfl
      simp only [hzero]
      omega
  case neg =>
    have hpos : popcount e ≠ 0 := fun h0 => he ((popcount_eq_zero_iff e).1 h0)
    have hlen := length_matchesOf h
    refine ⟨_, exec_dec_of_erasure h he s, fun h0 => absurd h0 hpos, fun hfew => ?few, fun hthree hoff => ?off,
      fun hthree hon => ?on, fun hmany => ?many⟩
    case few =>
      rw [card_agreeing_of_popcount_le_two (by omega)] at hlen
      split at hlen
      · exact .inl (statCode_searchStat_of_length_one hlen)
      · exact .inr (statCode_searchStat_of_length_zero hlen)
    case off =>
      have hspan := length_spanOf_mul_card e
      rw [card_agreeing_of_three hthree, if_neg hoff, hthree, Nat.mul_one] at hspan
      refine statCode_searchStat_of_length_one ?_
      rw [length_matchesOf_of_full_span h hspan, hthree]
      rfl
    case on =>
      rw [card_agreeing_of_three hthree, if_pos hon] at hlen
      split at hlen
      · have hcount := statMatches_searchStat (length_matchesOf_le v e)
        rw [hlen] at hcount
        exact .inl ⟨statCode_searchStat_of_two_le hlen.ge, BitVec.eq_of_toNat_eq hcount⟩
      · exact .inr (statCode_searchStat_of_length_zero hlen)
    case many =>
      have hlen := length_matchesOf_of_full_span h (length_spanOf_of_four_le hmany)
      have htwo : 2 ≤ 2 ^ (popcount e - 3) := Nat.le_self_pow (by omega) 2
      exact ⟨statCode_searchStat_of_two_le (by omega), by rw [statMatches_searchStat (length_matchesOf_le v e), hlen]⟩

/-! ## The order of the candidates (R153) -/

/-- Settles O42: a permutation of the candidates is one of the matching candidates, and the outcome is the same for
both. -/
theorem enumerationOrderIsIrrelevant : Obligations.EnumerationOrderIsIrrelevant := fun b _ h =>
  searchOutcome_perm b (h.filter _)

/-! ## Two flips (R154) -/

/-- R128: the syndrome number of a codeword with two flipped bits is that of the flips. -/
theorem number_flip_flip (d : BitVec 4) (i j : Nat) :
    number (encBits d ^^^ bitAt i ^^^ bitAt j) = number (bitAt i ^^^ bitAt j) := by
  rw [BitVec.xor_assoc, number_xor, (number_eq_zero_iff _).2 ⟨d, rfl⟩]
  exact BitVec.zero_xor

theorem flipped_xor (x y : Mask) (n : BitVec 3) : flipped (x ^^^ y) n = x ^^^ flipped y n := by
  unfold flipped
  split
  · rfl
  · rw [BitVec.xor_assoc]

/-- R154: two flips and the third position DEC flips are the codeword of a nonzero nibble. -/
theorem dataField_flipped_flips : ∀ i < 7, ∀ j < 7, i ≠ j →
    number (bitAt i ^^^ bitAt j) ≠ 0 ∧
      dataField (flipped (bitAt i ^^^ bitAt j) (number (bitAt i ^^^ bitAt j))) ≠ 0#7 := by decide

/-- Settles O44: DEC flips the position the flips' syndrome number names, and the three flips together change the
nibble. -/
theorem twoFlipsAreMiscorrected : Obligations.TwoFlipsAreMiscorrected := by
  unfold Obligations.TwoFlipsAreMiscorrected
  intro d i j s hi hj hij
  obtain ⟨hne, hdata⟩ := dataField_flipped_flips i hi j hj hij
  have hpos : (number (encBits d ^^^ bitAt i ^^^ bitAt j)).toNat = (i + 1) ^^^ (j + 1) := by
    rw [number_eq_syndromeNumber, toNat_syndromeNumber, toNat_synVal_flip_flip d hi hj]
  refine ⟨_, exec_dec_of_no_erasure _ s, ?_⟩
  simp only [statCode_packStat, statPos_packStat, resEra_packRes, resVal_packRes, hpos]
  rw [number_flip_flip, if_neg hne, BitVec.xor_assoc, flipped_xor, dataField_xor, dataField_encBits]
  refine ⟨rfl, trivial, hne, trivial, fun hsame => hdata ?_⟩
  rwa [← BitVec.xor_zero (x := 0#3 ++ d), BitVec.xor_assoc, BitVec.xor_right_inj, BitVec.zero_xor] at hsame

end Sys2Proof.Machine
end

section
/-! PROOFS of further obligations of spec/10_state.md and spec/60_exceptions.md: the reset values (R29), what a command
reports (R25, R27), what a step keeps (R21, R25, R27, R28), and the duties under which it answers (R240). -/

namespace Sys2Proof.Machine

open Sys2Proof.Claims

/-! ## Reset values (R29) -/

/-- Settles O1: every register field of 0 is 0, and before the first reset a read is the free value. -/
theorem resetValues : Obligations.ResetValues := by
  unfold Obligations.ResetValues
  refine ⟨rfl, rfl, rfl, rfl, rfl, statCode_zero, rfl, rfl, rfl, rfl, fun _ => ⟨rfl, rfl, rfl⟩, fun s h => ?before⟩
  case before => simp [State.readReg, h]

/-! ## What a command reports (R25, R27) -/

/-- Settles O26: each instruction commits RES and STAT. -/
theorem everyInstructionCompletes : Obligations.EveryInstructionCompletes :=
  ⟨fun d s => ⟨_, _, exec_enc d s⟩, fun v e s => ⟨_, _, exec_syn v e s⟩, fun v e s => ⟨_, _, exec_dec v e s⟩⟩

/-- R142 to R148: the codes DEC can report. -/
theorem code_decodeSymbols (b : Block) :
    (decodeSymbols b).code ∈ [Code.clean, .corrected, .resolved, .noSolution, .ambiguous] := by
  unfold decodeSymbols
  split
  case isTrue =>
    unfold searchOutcome
    split <;> simp
  case isFalse =>
    unfold decodeBits
    split <;> simp

/-- R28: the codes of DEC are neither NONE nor ILLEGAL. -/
theorem codeBits_decodeSymbols (b : Block) :
    codeBits (decodeSymbols b).code ≠ codeBits .none ∧ codeBits (decodeSymbols b).code ≠ codeBits .illegal := by
  have hcodes : ∀ c ∈ [Code.clean, .corrected, .resolved, .noSolution, .ambiguous],
      codeBits c ≠ codeBits .none ∧ codeBits c ≠ codeBits .illegal := by decide
  exact hcodes _ (code_decodeSymbols b)

/-- R25, R27, R35: an instruction reports its opcode in RES and STAT, with a code that is neither NONE nor ILLEGAL. -/
theorem exec_reports (i : Instr) (s : State) :
    ∃ t, exec i s = .next t ∧ resOp t.res = Laws.Layout.opcode i ∧ statOp t.stat = Laws.Layout.opcode i ∧
      statCode t.stat ≠ codeBits .none ∧ statCode t.stat ≠ codeBits .illegal := by
  cases i with
  | enc d =>
    refine ⟨_, exec_enc d s, resOp_packRes .., statOp_packStat .., ?_⟩
    rw [State.commit_stat, statCode_packStat]
    decide
  | syn v e =>
    refine ⟨_, exec_syn v e s, resOp_packRes .., statOp_packStat .., ?_⟩
    rw [State.commit_stat, statCode_packStat]
    decide
  | dec v e =>
    refine ⟨_, exec_dec v e s, resOp_packRes .., statOp_packStat .., ?_⟩
    rw [State.commit_stat, statCode_packStat]
    exact codeBits_decodeSymbols _

/-- Settles O18: a legal word reports what its instruction does, an illegal word is rejected with its raw OP field. -/
theorem statusReportsEveryCommand : Obligations.StatusReportsEveryCommand := by
  unfold Obligations.StatusReportsEveryCommand
  intro w s
  cases hl : legal w with
  | true =>
    obtain ⟨i, hi⟩ := (decode_ok_iff_legal w).2 hl
    obtain ⟨t, ht, hres, hstat, hnone, hill⟩ := exec_reports i s
    have hop : Laws.Layout.opcode i = opField w := by
      rw [← opField_encode, (encode_decode hi).2]
    rw [hop] at hres hstat
    exact ⟨t, by simp only [executeWord, hi, ht], hstat, by simp [hill], hnone, fun _ => hres⟩
  | false =>
    refine ⟨_, executeWord_of_illegal hl s, ?_⟩
    rw [State.rejectCommand_stat, statOp_packStat, statCode_packStat]
    exact ⟨rfl, by simp, by decide, by simp⟩

/-! ## RES and STAT as a command writes them are well formed (R25, R27, R28) -/

/-- R25: the reserved bits of RES are written 0. -/
theorem packRes_and_reserved (op : BitVec 4) (val era : Mask) : packRes op val era &&& resReserved = 0#32 :=
  commandWord_reserved op val era

/-- R27: the bits of the reserved mask of STAT: [15:11] and [31:21]. -/
theorem statReserved_bits : ∀ i < 32, statReserved.getLsbD i = (11 ≤ i && i < 16 || 21 ≤ i) := by decide

/-- R27: the reserved bits of STAT are written 0. -/
theorem packStat_and_reserved (count : BitVec 5) (pos : BitVec 3) (op code : BitVec 4) :
    packStat count pos op code &&& statReserved = 0#32 := by
  apply BitVec.eq_of_getLsbD_eq
  intro i hi
  rw [BitVec.getLsbD_and, statReserved_bits i hi]
  simp only [packStat, BitVec.getLsbD_append]
  interval_cases i <;> simp

/-- R25, R27, R28: registers a command writes are well formed where VAL and ERA share no bit, the fields are those of the
operation and the code, and a block decoded without loss has no unresolved output. -/
theorem regsOk_packed {op : BitVec 4} {val era : Mask} {code : Code} {pos : BitVec 3} {count : BitVec 5}
    (hcanon : val &&& era = 0#7) (hres : resContent (packRes op val era) = true)
    (hstat : statContent (packStat count pos op (codeBits code)) = true)
    (hera : code ∈ [.clean, .corrected, .resolved] → era = 0#7) :
    regsOk (packRes op val era) (packStat count pos op (codeBits code)) = true := by
  have hlossless : ∀ c : Code, codeBits c = codeBits .clean ∨ codeBits c = codeBits .corrected ∨
      codeBits c = codeBits .resolved → c ∈ [Code.clean, .corrected, .resolved] := by
    intro c
    cases c <;> decide
  have hagree : regsAgree (packRes op val era) (packStat count pos op (codeBits code)) = true := by
    simp only [regsAgree, resOp_packRes, statOp_packStat, statCode_packStat, resEra_packRes, Bool.and_eq_true,
      Bool.or_eq_true, beq_iff_eq, Bool.not_eq_true', Bool.or_eq_false_iff]
    refine ⟨.inr trivial, or_iff_not_imp_right.2 fun hne => ?_⟩
    have hnot : code ∉ [Code.clean, .corrected, .resolved] := fun hc => hne (hera hc)
    have hcode := mt (hlossless code) hnot
    simp only [not_or] at hcode
    simp [hcode]
  simp [regsOk, resOk, statOk, hcanon, hres, hstat, hagree, packRes_and_reserved, packStat_and_reserved]

/-- R21, R202: a rejected command leaves RES as it was and reports ILLEGAL. -/
theorem regsOk_reject {res : Word} (h : resOk res = true) (op : BitVec 4) :
    regsOk res (packStat 0 0 op (codeBits .illegal)) = true := by
  have hstat : statContent (packStat 0 0 op (codeBits .illegal)) = true := by
    simp [statContent, codeBits]
  have hagree : regsAgree res (packStat 0 0 op (codeBits .illegal)) = true := by
    simp [regsAgree, codeBits]
  simp only [regsOk, h, hagree, statOk, hstat, packStat_and_reserved]
  rfl

/-- R103: ENC writes well-formed registers. -/
theorem regsOk_enc (val : Mask) : regsOk (packRes opEnc val 0#7) (packStat 0 0 opEnc (codeBits .done)) = true :=
  regsOk_packed (BitVec.and_zero) (by simp [resContent, opEnc]) (by simp [statContent, codeBits, opEnc]) (by simp)

/-- R127: three flags leave the upper bits of their field 0. -/
theorem mask7_low_high (a b c : Bool) : (mask7 a b c false false false false).extractLsb' 3 4 = 0#4 := by
  revert a b c
  decide

/-- R127: no component of a syndrome is both 1 and indeterminate. -/
theorem synVal_and_synEra (y : Syndrome) : synVal y &&& synEra y = 0#7 := by
  have hmask : ∀ a b c a' b' c' : Bool, (a && a') = false → (b && b') = false → (c && c') = false →
      mask7 a b c false false false false &&& mask7 a' b' c' false false false false = 0#7 := by decide
  have hcomponent (x : Option Bool) : (componentOne x && componentUnknown x) = false := by
    cases x with
    | none => rfl
    | some b => exact Bool.and_false b
  exact hmask _ _ _ _ _ _ (hcomponent _) (hcomponent _) (hcomponent _)

/-- R127: SYN writes well-formed registers. -/
theorem regsOk_syn (y : Syndrome) :
    regsOk (packRes opSyn (synVal y) (synEra y)) (packStat 0 0 opSyn (codeBits .done)) = true := by
  have hval : (synVal y).extractLsb' 3 4 = 0#4 := mask7_low_high ..
  have hera : (synEra y).extractLsb' 3 4 = 0#4 := mask7_low_high ..
  exact regsOk_packed (synVal_and_synEra y) (by simp [resContent, opSyn, opEnc, hval, hera])
    (by simp [statContent, codeBits, opSyn]) (by simp)

/-- R149: the output symbols of DEC leave the upper bits of their field 0. -/
theorem dataField_high (v : Mask) : (dataField v).extractLsb' 4 3 = 0#3 := by
  have hmask : ∀ a b c d : Bool, (mask7 a b c d false false false).extractLsb' 4 3 = 0#3 := by decide
  exact hmask ..

theorem dataField_and_dataField {v e : Mask} (h : canonical v e = true) : dataField v &&& dataField e = 0#7 := by
  rw [← packVal_dataSymbols h, ← packEra_dataSymbols v]
  exact packVal_and_packEra _

/-- R25, R149: RES as DEC writes it has the content of DEC. -/
theorem resContent_dec (v e : Mask) : resContent (packRes opDec (dataField v) (dataField e)) = true := by
  simp [resContent, opDec, opEnc, opSyn, dataField_high]

/-- R142, R143: DEC without erasures writes well-formed registers. -/
theorem regsOk_dec_of_no_erasure (v : Mask) : regsOk (packRes 3 (dataField (flipped v (number v))) 0)
    (packStat 0 (number v) 3 (if number v = 0 then 2 else 3)) = true := by
  rw [← dataField_zero]
  have hcanon := dataField_and_dataField (canonical_zero (flipped v (number v)))
  have hcontent := resContent_dec (flipped v (number v)) 0
  split
  case isTrue hn =>
    rw [hn] at hcanon hcontent ⊢
    exact regsOk_packed (code := .clean) hcanon hcontent (by decide) fun _ => dataField_zero
  case isFalse hn =>
    exact regsOk_packed (op := opDec) (code := .corrected) hcanon hcontent
      (by simpa [statContent, codeBits, opDec] using hn) fun _ => dataField_zero

/-- R152: the number of codewords found is 0 or a power of two up to 16. -/
theorem length_matchesOf_mem {v e : Mask} (h : canonical v e = true) :
    (matchesOf v e).length ∈ [0, 1, 2, 4, 8, 16] := by
  obtain ⟨rho, -, -, hcard⟩ := exists_rank e
  have hle := length_matchesOf_le v e
  have hlen := length_matchesOf h
  rw [hcard] at hlen
  split at hlen
  case isTrue =>
    have hpow : 2 ^ (popcount e - rho) ≤ 2 ^ 4 := by omega
    have hexp : popcount e - rho ≤ 4 := (Nat.pow_le_pow_iff_right (by decide)).1 hpow
    rw [hlen]
    generalize popcount e - rho = n at hexp
    revert n
    decide
  case isFalse => simp [hlen]

/-- R146 to R149: a search writes well-formed registers. -/
theorem regsOk_search {v e : Mask} (h : canonical v e = true) {ws : List Mask}
    (hlen : ws.length ∈ [0, 1, 2, 4, 8, 16]) : regsOk (searchRes v e ws) (searchStat ws) = true := by
  match ws, hlen with
  | [], _ =>
    exact regsOk_packed (code := .noSolution) (dataField_and_dataField h) (resContent_dec v e) (by decide) (by simp)
  | [w], _ =>
    rw [searchRes, ← dataField_zero]
    exact regsOk_packed (code := .resolved) (dataField_and_dataField (canonical_zero w)) (resContent_dec w 0)
      (by decide) fun _ => dataField_zero
  | w :: w' :: rest, hlen =>
    have hcount : ∀ n ∈ [0, 1, 2, 4, 8, 16], 2 ≤ n →
        statContent (packStat (BitVec.ofNat 5 n) 0 opDec (codeBits .ambiguous)) = true := by decide
    exact regsOk_packed (code := .ambiguous) (dataField_and_dataField h) (resContent_dec v e)
      (hcount _ hlen (by simp)) (by simp)

/-- R25, R27, R28, R79: a well-formed instruction writes RES and STAT alone, and writes them well formed. -/
theorem exec_writes_regsOk {i : Instr} (h : i.wellFormed = true) (s : State) :
    ∃ r c, exec i s = .next { s with res := r, stat := c } ∧ regsOk r c = true := by
  cases i with
  | enc d => exact ⟨_, _, exec_enc d s, regsOk_enc _⟩
  | syn v e => exact ⟨_, _, exec_syn v e s, regsOk_syn _⟩
  | dec v e =>
    by_cases he : e = 0
    case pos =>
      subst he
      exact ⟨_, _, exec_dec_of_no_erasure v s, regsOk_dec_of_no_erasure v⟩
    case neg =>
      have hc : canonical v e = true := h
      exact ⟨_, _, exec_dec_of_erasure hc he s, regsOk_search hc (length_matchesOf_mem hc)⟩

/-- R21, R25, R27, R28: every command word keeps RES and STAT well formed. -/
theorem executeWord_keeps_regsOk (w : Word) {s : State} (h : regsOk s.res s.stat = true) :
    ∃ r c, executeWord w s = .next { s with res := r, stat := c } ∧ regsOk r c = true := by
  rcases executeWord_cases w s with ⟨i, hi, hx⟩ | ⟨-, -, hx⟩
  · obtain ⟨r, c, hexec, hok⟩ := exec_writes_regsOk (encode_decode hi).1 s
    exact ⟨r, c, hx.trans hexec, hok⟩
  · simp only [regsOk, Bool.and_eq_true] at h
    obtain ⟨⟨hres, -⟩, -⟩ := h
    exact ⟨s.res, _, hx, regsOk_reject hres _⟩

/-! ## The invariant (R25, R27, R28) -/

/-- R29: RES and STAT are well formed after a reset. -/
theorem regsOk_zero : regsOk 0#32 0#32 = true := by decide

theorem State.Inv.dropReset {s : State} (h : s.Inv) : s.dropReset.Inv := ⟨h.regs, h.flight, h.vars⟩

theorem State.Inv.nextTurn {s : State} (h : s.Inv) : s.nextTurn.Inv := ⟨h.regs, h.flight, h.vars⟩

theorem State.Inv.applyReset {s : State} (h : s.Inv) : s.applyReset.Inv :=
  ⟨fun _ => regsOk_zero, fun _ => rfl, h.vars⟩

theorem State.Inv.accept {s : State} (h : s.Inv) (hreset : s.wasReset = true) (w : Word) : (s.accept w).Inv :=
  ⟨h.regs, fun _ => hreset, h.vars⟩

theorem State.Inv.setDriver {s : State} (h : s.Inv) (k : Nat) {d : Driver} (hd : varsOk d.vars) :
    (s.setDriver k d).Inv :=
  ⟨h.regs, h.flight, fun d' hd' => (List.mem_or_eq_of_mem_set hd').elim (h.vars d') fun heq => heq ▸ hd⟩

/-- A host that is on the bus has its variables in canonical form. -/
theorem State.Inv.vars_of_getElem? {s : State} (h : s.Inv) {k : Nat} {d : Driver} (hd : s.drivers[k]? = some d) :
    varsOk d.vars := h.vars d (List.mem_of_getElem? hd)

/-- R20, R64: a turn keeps the invariant. -/
theorem hostTurn_keeps_inv {s t : State} (h : s.Inv) (ht : hostTurn s = .next t) : t.Inv := by
  rcases hostTurn_next ht with rfl | ⟨d, st, hd, -, hrun⟩
  · exact h.nextTurn
  · obtain ⟨d', hvars, hcase⟩ := runStatement_next hrun
    have hd' : varsOk d'.vars := hvars (h.vars_of_getElem? hd)
    rcases hcase with rfl | ⟨v, -, hreset, rfl⟩ | ⟨-, rfl⟩
    · exact h.nextTurn.setDriver _ hd'
    · exact (h.nextTurn.accept hreset v).setDriver _ hd'
    · exact h.nextTurn.applyReset.setDriver _ hd'

/-- R232: so does a cut-off write. -/
theorem cutOffWrite_keeps_inv {s : State} (h : s.Inv) : s.cutOffWrite.Inv := by
  rcases cutOffWrite_cases s with heq | ⟨d, -, hd, -, -, heq⟩
  · rwa [heq]
  · rw [heq]
    exact h.nextTurn.setDriver _ (h.vars_of_getElem? (d := d) hd)

/-- Settles O47: the command in flight writes well-formed registers, a host's turn and a reset keep them or set them
to 0. -/
theorem stepKeepsInvariant : Obligations.StepKeepsInvariant := by
  unfold Obligations.StepKeepsInvariant
  intro s t h ht
  rcases step_next ht with ⟨-, w, hw, hx⟩ | ⟨-, -, hx⟩ | ⟨-, rfl⟩ | ⟨-, -, rfl⟩
  · have hreset : s.wasReset = true := h.flight (by simp [hw])
    obtain ⟨r, c, hnext, hok⟩ := executeWord_keeps_regsOk w (s := s.dropReset.release) (h.regs hreset)
    rw [hnext] at hx
    cases hx
    exact ⟨fun _ => hok, fun _ => hreset, h.vars⟩
  · exact hostTurn_keeps_inv h.dropReset hx
  · exact h.dropReset.applyReset
  · exact cutOffWrite_keeps_inv h.dropReset.applyReset

/-- R238: a host's variables are undefined at its launch. -/
theorem launch_varsOk (prog : List Stmt) : ∀ d ∈ [Driver.launch prog], varsOk d.vars := by
  simp [Driver.launch, varsOk]

theorem launch_inv (prog : List Stmt) : (State.launch prog).Inv :=
  ⟨fun _ => regsOk_zero, fun _ => rfl, launch_varsOk prog⟩

/-- Settles O48: RES and STAT are 0 where they are looked at, no command is in flight and no variable is stored. -/
theorem launchMeetsInvariant : Obligations.LaunchMeetsInvariant :=
  ⟨launch_inv [], launch_inv, fun prog => ⟨nofun, fun h => absurd rfl h, launch_varsOk prog⟩⟩

/-! ## What a step leaves unchanged (R21, R59, R213) -/

/-- Settles O14: with no command in flight and no reset, a step is a host's turn, and a statement other than `RST` writes
neither register. -/
theorem onlyCommandsAndResetsChangeRegisters : Obligations.OnlyCommandsAndResetsChangeRegisters := by
  unfold Obligations.OnlyCommandsAndResetsChangeRegisters
  intro s t ht hquiet hfree hrst
  rcases step_next ht with ⟨-, w, hw, -⟩ | ⟨-, -, hx⟩ | ⟨hreset, -⟩ | ⟨hreset, -, -⟩
  · simp [hfree] at hw
  · rcases hostTurn_next hx with rfl | ⟨d, st, hd, hs, hrun⟩
    · exact ⟨rfl, rfl⟩
    · obtain ⟨d', -, rfl | ⟨v, -, -, rfl⟩ | ⟨rfl, -⟩⟩ := runStatement_next hrun
      · exact ⟨rfl, rfl⟩
      · exact ⟨rfl, rfl⟩
      · exact absurd hs (hrst d hd)
  · exact absurd hquiet hreset
  · simp [hquiet] at hreset

/-- R20, R59: a turn moves at most the host whose turn it is. -/
theorem hostTurn_drivers {s t : State} (ht : hostTurn s = .next t) :
    t.drivers = s.drivers ∨ ∃ d, t.drivers = s.drivers.set s.turn d := by
  rcases hostTurn_next ht with rfl | ⟨d, st, -, -, hrun⟩
  · exact .inl rfl
  · obtain ⟨d', -, rfl | ⟨v, -, -, rfl⟩ | ⟨-, rfl⟩⟩ := runStatement_next hrun
    · exact .inr ⟨d', rfl⟩
    · exact .inr ⟨d', rfl⟩
    · exact .inr ⟨d', rfl⟩

theorem cutOffWrite_drivers (s : State) :
    s.cutOffWrite.drivers = s.drivers ∨ ∃ d, s.cutOffWrite.drivers = s.drivers.set s.turn d := by
  rcases cutOffWrite_cases s with heq | ⟨d, -, -, -, -, heq⟩
  · exact .inl (by rw [heq])
  · exact .inr ⟨d.advance, by rw [heq]; rfl⟩

/-- R59, R64: a step moves at most the host whose turn it is, and none while a command is in flight. -/
theorem step_drivers {s t : State} (ht : step s = .next t) :
    t.drivers = s.drivers ∨ (s.inFlight = none ∧ ∃ d, t.drivers = s.drivers.set s.turn d) := by
  rcases step_next ht with ⟨-, w, -, hx⟩ | ⟨-, hfree, hx⟩ | ⟨-, rfl⟩ | ⟨-, hfree, rfl⟩
  · obtain ⟨r, c, hnext⟩ := executeWord_writes w s.dropReset.release
    rw [hnext] at hx
    cases hx
    exact .inl rfl
  · exact (hostTurn_drivers hx).imp_right fun h => ⟨hfree, h⟩
  · exact .inl rfl
  · exact (cutOffWrite_drivers s.dropReset.applyReset).imp_right fun h => ⟨hfree, h⟩

/-- Settles O15: replacing the entry of one host leaves the others' as they were. -/
theorem oneHostMovesAtATime : Obligations.OneHostMovesAtATime := by
  unfold Obligations.OneHostMovesAtATime
  intro s t ht
  rcases step_drivers ht with heq | ⟨hfree, d, heq⟩
  · exact ⟨fun k _ => by rw [heq], fun _ => heq⟩
  · exact ⟨fun k hk => by rw [heq, List.getElem?_set_ne hk.symm], fun hflight => absurd hfree hflight⟩

/-! ## When a step answers (R240) -/

/-- R81: a jump answers where the program has the label. -/
theorem hostJump_answers_iff (l : Label) (k : Nat) (d : Driver) (s : State) :
    (∃ t, hostJump l k d s = .next t) ↔ hasLabel d l = true := by
  rw [hasLabel, ← List.findIdx?_isSome, hostJump, Driver.jump]
  cases d.prog.findIdx? fun st => st == .label l <;> simp

/-- R58, R240: a write answers where its access is allowed. -/
theorem hostWrite_answers_iff (off : Offset) (width : Nat) (v : Word) (k : Nat) (d : Driver) (s : State) :
    (∃ t, hostWrite off width v k d s = .next t) ↔ accessAllowed s off width true = true := by
  rw [hostWrite, accessAllowed]
  rcases busWrite_cases s off width v with ⟨ha, hr, hw⟩ | ⟨ha, hr, hw⟩ | ⟨r, ha, hne, hw⟩ | ⟨ha, hw⟩
  · simp [ha, hr, hw]
  · simp [ha, hr, hw]
  · cases r <;> simp_all
  · simp [ha, hw]

/-- R54, R240: a read answers where its access is defined. -/
theorem hostRead_answers_iff (off : Offset) (width : Nat) (x : Var) (k : Nat) (d : Driver) (s : State) :
    (∃ t, hostRead off width x k d s = .next t) ↔ accessAllowed s off width false = true := by
  rw [hostRead, accessAllowed]
  rcases busRead_cases s off width with ⟨r, ha, hw⟩ | ⟨ha, hw⟩
  · cases r <;> simp [ha, hw]
  · simp [ha, hw]

/-- R240: a statement answers where its host keeps its duties with it. -/
theorem runStatement_answers_iff (s : State) (st : Stmt) (k : Nat) (d : Driver) :
    (∃ t, runStatement st k d s.afterTurn = .next t) ↔ statementDuty s d st = true := by
  cases st with
  | wr off width e => exact hostWrite_answers_iff ..
  | rd off width x => exact hostRead_answers_iff ..
  | br cond l =>
    have hdraws : s.afterTurn.draws = s.draws + 1 := rfl
    simp only [runStatement, statementDuty, hdraws]
    by_cases hc : evalExpr (s.draws + 1) d.vars cond = 0#32
    · simp [hc]
    · simp [hc, hostJump_answers_iff]
  | jmp l => exact hostJump_answers_iff ..
  | set x e => simp [runStatement, statementDuty]
  | rst => simp [runStatement, statementDuty]
  | halt => simp [runStatement, statementDuty]
  | label l => simp [runStatement, statementDuty]
  | result kind xs => simp [runStatement, statementDuty]

/-- R240: a turn answers where the host that moves, if one does, keeps its duties. -/
theorem hostTurn_answers_iff (s : State) : (∃ t, hostTurn s.dropReset = .next t) ↔ hostDuty s = true := by
  have hturn : s.dropReset.turn = s.turn := rfl
  simp only [hostTurn, hostDuty, State.dropReset_drivers, hturn]
  cases s.drivers[s.turn]? with
  | none => simp
  | some d =>
    cases hs : d.statement with
    | none => simp [hs]
    | some st =>
      simp only [hs]
      exact runStatement_answers_iff s st s.turn d

/-- A step with no command in flight and no reset event is a host's turn. -/
theorem step_of_free {s : State} (hq : s.resetNow = .quiet) (hf : s.inFlight = none) :
    step s = hostTurn s.dropReset := by
  have hfree : s.dropReset.inFlight = none := hf
  simp only [step, cycle, hq, quietCycle, hfree]

/-- Settles O49: a reset event and a command in flight always answer; else it is the host's statement that decides. -/
theorem stepAnswersExactlyUnderDuty : Obligations.StepAnswersExactlyUnderDuty := by
  unfold Obligations.StepAnswersExactlyUnderDuty
  intro s
  by_cases hq : s.resetNow = .quiet
  case neg =>
    obtain ⟨_, _, _, hstep, -⟩ := step_of_reset hq
    simp [stepDuty, hq, hstep]
  cases hf : s.inFlight with
  | some w =>
    obtain ⟨_, _, hx⟩ := executeWord_writes w s.dropReset.release
    rw [step_of_inFlight hq hf, hx]
    simp [stepDuty, hf]
  | none =>
    rw [step_of_free hq hf, hostTurn_answers_iff]
    simp [stepDuty, hq, hf]

end Sys2Proof.Machine
end

section
/-! PROOFS of the obligations of spec/20_memory.md: the window, the byte lanes and the transactions of a host. -/

namespace Sys2Proof.Machine

/-! ## The window and the byte lanes (R50, R53) -/

/-- R50: an address in the window is its base and an offset. -/
theorem windowOffset_base_add (base : Nat) (off : Offset) : windowOffset base (base + off.toNat) = some off := by
  have hlt := off.isLt
  simp only [windowOffset, Nat.le_add_right, true_and, Nat.add_lt_add_iff_left, Nat.add_sub_cancel_left]
  rw [if_pos (by omega), BitVec.ofNat_toNat, BitVec.setWidth_eq]

theorem windowOffset_outside {base addr : Nat} (h : addr < base ∨ base + 16 ≤ addr) : windowOffset base addr = none :=
  if_neg (by omega)

/-- Settles O11: an address of the window names its offset, any other none. -/
theorem windowLiesAtBase : Obligations.WindowLiesAtBase := by
  unfold Obligations.WindowLiesAtBase
  refine ⟨Nat.mul_mod_right 16 _, fun s off width v => ?inside, fun s addr width v h => ?outside⟩
  case inside => simp only [State.memRead, State.memWrite, windowOffset_base_add, Option.map_some, and_self]
  case outside => simp only [State.memRead, State.memWrite, windowOffset_outside h, Option.map_none, and_self]

/-- R53: the byte of bits [8n + 7 : 8n]. -/
theorem extractLsb'_byte (w : Word) (n : Nat) : w.extractLsb' (8 * n) 8 = BitVec.ofNat 8 (w.toNat / 2 ^ (8 * n)) := by
  apply BitVec.eq_of_toNat_eq
  rw [BitVec.extractLsb'_toNat, BitVec.toNat_ofNat, Nat.shiftRight_eq_div_pow]

/-- R53: four bytes that follow each other are the word. -/
theorem wordOfBytes_wordBytes (w : Word) :
    wordOfBytes (w.extractLsb' 0 8) (w.extractLsb' 8 8) (w.extractLsb' 16 8) (w.extractLsb' 24 8) = w := by
  apply BitVec.eq_of_getLsbD_eq
  intro i hi
  simp only [wordOfBytes, BitVec.getLsbD_append, BitVec.getLsbD_extractLsb']
  interval_cases i <;> simp

/-- Settles O12, byte by byte. -/
theorem byteLanesAreLittleEndian : Obligations.ByteLanesAreLittleEndian := by
  unfold Obligations.ByteLanesAreLittleEndian
  intro w
  refine ⟨rfl, fun n hn => ?_, _, _, _, _, rfl, wordOfBytes_wordBytes w⟩
  rw [← extractLsb'_byte]
  interval_cases n <;> rfl

/-! ## Transactions of the host whose turn it is (R52, R54 to R56, R58) -/

section
variable {s : State} {d : Driver}

/-- R54, R56: a read answers the state in which its variable holds the register's value. -/
theorem step_of_rdReg {r : Reg} {x : Var} (h : s.Executes d (.rdReg r x)) :
    step s = .next (s.afterTurn.setDriver s.turn (d.assign x (s.afterTurn.readReg r))) := by
  simp only [step_of_executes h, Stmt.rdReg, runStatement, hostRead, State.busRead, accessReg_offset]

/-- R55: a write to a register other than CMD answers the state in which its host has moved on. -/
theorem step_of_wrReg_ignored {r : Reg} {e : Expr} (h : s.Executes d (.wrReg r e)) (hr : r ≠ .cmd) :
    step s = .next (s.afterTurn.setDriver s.turn d.advance) := by
  have hwrite (v : Word) : s.afterTurn.writeReg r v = .ok s.afterTurn := by
    cases r with
    | cmd => exact absurd rfl hr
    | res => rfl
    | stat => rfl
    | rsv => rfl
  simp only [step_of_executes h, Stmt.wrReg, runStatement, hostWrite, State.busWrite, accessReg_offset, hwrite]

/-- R58: after a reset a CMD write answers the state with its word in flight. -/
theorem step_of_wrReg_cmd {e : Expr} (h : s.Executes d (.wrReg .cmd e)) (hreset : s.wasReset = true) :
    step s =
      .next ((s.afterTurn.accept (evalExpr s.afterTurn.draws d.vars e)).setDriver s.turn d.advance) := by
  have hafter : s.afterTurn.wasReset = true := hreset
  simp only [step_of_executes h, Stmt.wrReg, runStatement, hostWrite, State.busWrite, accessReg_offset, State.writeReg,
    hafter, if_true]

/-- R233: before the first reset a CMD write is refused. -/
theorem step_of_wrReg_cmd_before_reset {e : Expr} (h : s.Executes d (.wrReg .cmd e)) (hreset : s.wasReset = false) :
    step s = .refused .commandBeforeReset := by
  have hafter : s.afterTurn.wasReset = false := hreset
  simp only [step_of_executes h, Stmt.wrReg, runStatement, hostWrite, State.busWrite, accessReg_offset, State.writeReg,
    hafter, Bool.false_eq_true, if_false]

/-- R54: after a reset a register reads as its contents. -/
theorem readReg_res (h : s.wasReset = true) : s.readReg .res = s.res := if_pos h

theorem readReg_stat (h : s.wasReset = true) : s.readReg .stat = s.stat := if_pos h

end

/-- Settles O8: a read stores the value its register has in the state it leaves. -/
theorem readsHaveNoSideEffects : Obligations.ReadsHaveNoSideEffects := by
  unfold Obligations.ReadsHaveNoSideEffects
  intro s d r x h
  refine ⟨_, _, step_of_rdReg h, rfl, rfl, h.free, rfl, rfl, ?zero, ?res, ?stat⟩
  case zero => rintro (rfl | rfl) <;> exact ⟨rfl, rfl⟩
  case res =>
    rintro hreset rfl
    exact ⟨readReg_res hreset, rfl⟩
  case stat =>
    rintro hreset rfl
    exact ⟨readReg_stat hreset, rfl⟩

/-- Settles O9: an ignored write moves its host on and does nothing else. -/
theorem writesToOtherRegistersAreIgnored : Obligations.WritesToOtherRegistersAreIgnored := by
  unfold Obligations.WritesToOtherRegistersAreIgnored
  intro s d r e h hr
  exact ⟨_, step_of_wrReg_ignored h hr, rfl, rfl, h.free, rfl, rfl⟩

/-- Settles O10: an access is defined where it reaches a register, and after a reset every such access answers. -/
theorem onlyAlignedWordAccessesAreDefined : Obligations.OnlyAlignedWordAccessesAreDefined := by
  unfold Obligations.OnlyAlignedWordAccessesAreDefined
  refine ⟨fun s d off width hundef => ?undefined, fun s d off halign hreset => ?defined⟩
  case undefined =>
    have hnone := (accessReg_eq_none off width).2 hundef
    refine ⟨fun e h => ?_, fun x h => ?_⟩
    · simp only [step_of_executes h, runStatement, hostWrite, State.busWrite, hnone]
    · simp only [step_of_executes h, runStatement, hostRead, State.busRead, hnone]
  case defined =>
    obtain ⟨r, hr⟩ := Option.ne_none_iff_exists'.1 fun hnone =>
      ((accessReg_eq_none off 4).1 hnone).elim (fun hne => hne rfl) fun hne => hne halign
    have hallowed (isWrite : Bool) : accessAllowed s.afterTurn off 4 isWrite = true := by
      have hafter : s.afterTurn.wasReset = true := hreset
      rw [accessAllowed, hr]
      cases r <;> simp [hafter]
    refine ⟨fun e h => ?_, fun x h => ?_⟩
    · rw [step_of_executes h]
      exact (hostWrite_answers_iff ..).2 (hallowed true)
    · rw [step_of_executes h]
      exact (hostRead_answers_iff ..).2 (hallowed false)

/-- Settles O6: acceptance puts the word in flight, and the step after it writes RES and STAT and frees the port. -/
theorem commandWriteIsAcceptedThenCompletes : Obligations.CommandWriteIsAcceptedThenCompletes := by
  unfold Obligations.CommandWriteIsAcceptedThenCompletes
  refine ⟨fun s d e h hreset => step_of_wrReg_cmd h hreset, fun s w hquiet hw => ?completes⟩
  case completes =>
    obtain ⟨r, c, hx⟩ := executeWord_writes w s.dropReset.release
    exact ⟨r, c, (step_of_inFlight hquiet hw).trans hx⟩

end Sys2Proof.Machine
end

section
/-! PROOFS of further obligations of spec/30_encoding.md and spec/70_reset_and_hazards.md: the command in flight (R79, R231,
R235), power-up (R233) and the end of a host (R239). -/

namespace Sys2Proof.Machine

/-- Settles O7: the word in flight runs the instruction it decodes to. -/
theorem stepRunsDecodedInstruction : Obligations.StepRunsDecodedInstruction := by
  unfold Obligations.StepRunsDecodedInstruction
  intro s w i hquiet hw hi
  refine ⟨(encode_decode hi).1, ?_⟩
  simp only [step_of_inFlight hquiet hw, executeWord, hi]
  rfl

/-- Settles O3: with a command in flight both forms of the reset event are the reset alone. -/
theorem resetAbandonsCommandInFlight : Obligations.ResetAbandonsCommandInFlight := by
  unfold Obligations.ResetAbandonsCommandInFlight
  intro s w hw hreset
  have hflight : s.dropReset.inFlight ≠ none := by simp [hw]
  cases hnow : s.resetNow with
  | quiet => exact absurd hnow hreset
  | alone =>
    simp only [step, cycle, hnow]
    rfl
  | withWrite =>
    simp only [step, cycle, hnow, State.resetWithWrite, if_neg hflight]
    rfl

/-- Settles O5: before the first reset a read gives the draw's free value and a CMD write is refused. -/
theorem beforeFirstReset : Obligations.BeforeFirstReset := by
  unfold Obligations.BeforeFirstReset
  refine ⟨fun s d r x h hreset hr => ?read, fun s d e h hreset => step_of_wrReg_cmd_before_reset h hreset⟩
  case read =>
    have hafter : s.afterTurn.wasReset = false := hreset
    rw [step_of_rdReg h]
    rcases hr with rfl | rfl <;> simp [State.readReg, hafter]

/-- Settles O13: the command accepted in the first step completes in the second, with the result its word has from every
state. -/
theorem readAfterCommandReturnsItsResult : Obligations.ReadAfterCommandReturnsItsResult := by
  unfold Obligations.ReadAfterCommandReturnsItsResult
  intro s d e h hreset hresets
  generalize hw : evalExpr s.afterTurn.draws d.vars e = w
  have hfirst := step_of_wrReg_cmd h hreset
  rw [hw] at hfirst
  have hquiet : ((s.afterTurn.accept w).setDriver s.turn d.advance).resetNow = .quiet := by
    simp [State.resetNow, State.afterTurn, hresets]
  have hsecond := step_of_inFlight hquiet rfl
  cases hdecode : decode w with
  | ok i =>
    obtain ⟨op, val, era, code, pos, count, hexec⟩ := exec_eq_commit i
    simp only [executeWord, hdecode, hexec] at hsecond
    refine ⟨_, _, hfirst, hsecond, rfl, fun j hj a b hb => ?_, nofun⟩
    cases hj
    cases (hexec a).symm.trans hb
    exact ⟨readReg_res hreset, readReg_stat hreset⟩
  | error e =>
    simp only [executeWord, hdecode] at hsecond
    refine ⟨_, _, hfirst, hsecond, rfl, nofun, fun _ _ => ⟨?_, ?_⟩⟩
    · simp [State.readReg, State.afterTurn, hreset]
    · simp [State.readReg, State.afterTurn, hreset]

/-- Settles O50: `HALT` marks its host as ended, and an ended host has no statement. -/
theorem haltedHostDoesNothing : Obligations.HaltedHostDoesNothing := by
  unfold Obligations.HaltedHostDoesNothing
  refine ⟨fun s d h => step_of_executes h, fun s d hquiet hfree hd hhalted => ?ended⟩
  case ended =>
    have hhost : s.dropReset.drivers[s.dropReset.turn]? = some d := hd
    have hnone : d.statement = none := by simp [Driver.statement, hhalted]
    simp only [step_of_free hquiet hfree, hostTurn, hhost, hnone]
    rfl

end Sys2Proof.Machine
end

section
/-! PROOFS of the obligations of spec/30_encoding.md on host statements: expressions, `SET`, labels, result lines and
branches (R81). -/

namespace Sys2Proof.Machine

open Sys2Proof.Claims

/-! ## Expressions (R81) -/

/-- A comparison gives 1 where it holds. -/
theorem truth_decide (p : Prop) [Decidable p] : truth (decide p) = if p then 1 else 0 := by
  by_cases hp : p <;> simp [truth, hp]

/-- Settles O51, operator by operator. -/
theorem hostArithmeticIsUnsigned : Obligations.HostArithmeticIsUnsigned := by
  unfold Obligations.HostArithmeticIsUnsigned
  refine ⟨fun a b => ⟨?add, ?sub, fun hb => ⟨?shl, ?shr⟩, ?and, ?or, ?xor, truth_decide _, truth_decide _,
    truth_decide _, truth_decide _, ?eq, ?ne, ?land, ?lor⟩, fun n vars x y op w v => ⟨fun i hi => ?not, rfl, rfl, fun hv => ?var⟩⟩
  case add => exact BitVec.toNat_add a b
  case sub => exact BitVec.toNat_sub a b
  case shl => rw [evalBin, if_pos hb, BitVec.toNat_shiftLeft, Nat.shiftLeft_eq]
  case shr => rw [evalBin, if_pos hb, BitVec.toNat_ushiftRight, Nat.shiftRight_eq_div_pow]
  case and => exact fun _ => BitVec.getLsbD_and
  case or => exact fun _ => BitVec.getLsbD_or
  case xor => exact fun _ => BitVec.getLsbD_xor
  case eq => by_cases h : a = b <;> simp [evalBin, truth, h]
  case ne => by_cases h : a = b <;> simp [evalBin, truth, h]
  case land => by_cases ha : a = 0#32 <;> by_cases hb : b = 0#32 <;> simp [evalBin, truth, ha, hb]
  case lor => by_cases ha : a = 0#32 <;> by_cases hb : b = 0#32 <;> simp [evalBin, truth, ha, hb]
  case not => rw [evalExpr, BitVec.getLsbD_not, decide_eq_true hi, Bool.true_and]
  case var => rw [evalExpr, readVar, hv, Option.getD_some]

/-! ## `SET`, labels and result lines (R81, R190, R191) -/

theorem length_resultSymbols (kind : ResultKind) (w : Word) :
    (resultSymbols kind w).length = symbolsPerWord kind := by
  cases kind <;> rfl

/-- R191: symbol `j` of a partial nibble's text is that of bit `j` of VAL and ERA. -/
theorem getElem?_nibbleSymbols (w : Word) {j : Nat} (hj : j < 4) :
    (nibbleSymbols w)[j]? = some (operandSymbol (resVal w) (resEra w) j) := by
  interval_cases j <;> rfl

/-- R190, R191: the symbols of the words in the listed variables stand one after the other. -/
theorem getElem?_emitted (n : Nat) (vars : List (Var × Word)) (kind : ResultKind) {xs : List Var} {k : Nat} {x : Var}
    {w : Word} (hk : xs[k]? = some x) (hw : lookupVar x vars = some w) {j : Nat} (hj : j < symbolsPerWord kind) :
    (xs.flatMap fun x => resultSymbols kind (readVar n vars x))[symbolsPerWord kind * k + j]? =
      (resultSymbols kind w)[j]? := by
  rw [getElem?_flatMap_of_length (fun _ => length_resultSymbols kind _) _ _ hj, hk, Option.bind_some, readVar, hw,
    Option.getD_some]

/-- Settles O52: `SET` stores one variable, a label moves its host on, and a result line appends the symbols of its
words. -/
theorem hostStatementsKeepTheCore : Obligations.HostStatementsKeepTheCore := by
  unfold Obligations.HostStatementsKeepTheCore
  refine ⟨fun s d x e h => ?set, fun s d l h => step_of_executes h, fun s d kind xs h => ?result⟩
  case set =>
    exact ⟨_, step_of_executes h, rfl, rfl, rfl, rfl, lookupVar_storeVar_same .., fun y hy =>
      lookupVar_storeVar_other _ _ _ _ hy⟩
  case result =>
    refine ⟨_, step_of_executes h, ?length, fun k x w hk hw j hj hkind => ?nibble,
      fun k x w hk hw j hj hkind => ?codeword⟩
    case length => simp [List.length_flatMap, length_resultSymbols, Nat.mul_comm]
    case nibble =>
      subst hkind
      exact (getElem?_emitted _ _ .partialNibble hk hw hj).trans (getElem?_nibbleSymbols w hj)
    case codeword =>
      subst hkind
      exact (getElem?_emitted _ _ .codeword hk hw hj).trans (getElem?_codewordSymbols w hj)

/-! ## Branches (R81) -/

/-- R81: a jump goes to the statement where its label stands first. -/
theorem jump_of_first_label {d : Driver} {l : Label} {n : Nat} (hn : d.prog[n]? = some (.label l))
    (hfirst : ∀ m, m < n → d.prog[m]? ≠ some (.label l)) : d.jump l = some { d with pc := n } := by
  obtain ⟨hlt, hget⟩ := List.getElem?_eq_some_iff.1 hn
  have hfind : d.prog.findIdx? (fun st => st == .label l) = some n := by
    rw [List.findIdx?_eq_some_iff_getElem]
    refine ⟨hlt, beq_iff_eq.2 hget, fun m hm => ?_⟩
    have hne := hfirst m hm
    rw [List.getElem?_eq_getElem (hm.trans hlt)] at hne
    simpa using hne
  simp only [Driver.jump, hfind]

/-- Settles O53: a jump that is taken replaces its host's place by the label's, one that is not moves it on. -/
theorem branchesGoToTheirLabel : Obligations.BranchesGoToTheirLabel := by
  unfold Obligations.BranchesGoToTheirLabel
  intro s d l n hn hfirst
  have hjump := jump_of_first_label hn hfirst
  refine ⟨fun h => ?jmp, fun c h hc => ?taken, fun c h hc => ?not_taken⟩
  case jmp => simp only [step_of_executes h, runStatement, hostJump, hjump]
  case taken => simp only [step_of_executes h, runStatement, if_pos hc, hostJump, hjump]
  case not_taken =>
    rw [step_of_executes h, runStatement, if_neg (not_not.2 hc)]
    rfl

end Sys2Proof.Machine
end

section
/-! PROOFS of further obligations of spec/10_state.md: several cores share nothing (R36). -/

namespace Sys2Proof.Machine

/-- R36: a platform's step is that of one of its cores, where there is one. -/
theorem platformStep_next_iff (k : Nat) (p q : Platform) : platformStep k p = .next q ↔
    (p[k]? = none ∧ q = p) ∨ ∃ s t, p[k]? = some s ∧ step s = .next t ∧ q = p.set k t := by
  unfold platformStep
  cases hk : p[k]? with
  | none => simp [eq_comm]
  | some s => cases hs : step s <;> simp [hs, eq_comm]

/-- R192: a schedule answers when its first step does and the rest from there. -/
theorem platformRun_cons_next_iff (k : Nat) (rest : List Nat) (p q : Platform) :
    platformRun (k :: rest) p = .next q ↔ ∃ m, platformStep k p = .next m ∧ platformRun rest m = .next q := by
  rw [platformRun]
  cases platformStep k p <;> simp

/-- R36: the steps of two cores can be taken in either order. -/
theorem platformStep_comm {a b : Nat} (hab : a ≠ b) {p m q : Platform} (ha : platformStep a p = .next m)
    (hb : platformStep b m = .next q) : ∃ n, platformStep b p = .next n ∧ platformStep a n = .next q := by
  simp only [platformStep_next_iff] at ha hb ⊢
  rcases ha with ⟨hnone, rfl⟩ | ⟨s, t, hs, ht, rfl⟩
  · rcases hb with ⟨hnone', rfl⟩ | ⟨s', t', hs', ht', rfl⟩
    · exact ⟨_, .inl ⟨hnone', rfl⟩, .inl ⟨hnone, rfl⟩⟩
    · exact ⟨_, .inr ⟨s', t', hs', ht', rfl⟩, .inl ⟨by rwa [List.getElem?_set_ne hab.symm], rfl⟩⟩
  · rw [List.getElem?_set_ne hab] at hb
    rcases hb with ⟨hnone', rfl⟩ | ⟨s', t', hs', ht', rfl⟩
    · exact ⟨_, .inl ⟨hnone', rfl⟩, .inr ⟨s, t, hs, ht, rfl⟩⟩
    · exact ⟨_, .inr ⟨s', t', hs', ht', rfl⟩,
        .inr ⟨s, t, by rwa [List.getElem?_set_ne hab.symm], ht, List.set_comm _ _ hab⟩⟩

/-- R36: schedules that are permutations of each other end in the same platform. -/
theorem platformRun_perm {order order' : List Nat} (h : order.Perm order') {p q : Platform}
    (hrun : platformRun order p = .next q) : platformRun order' p = .next q := by
  induction h generalizing p with
  | nil => exact hrun
  | cons k _ ih =>
    rw [platformRun_cons_next_iff] at hrun ⊢
    obtain ⟨m, hm, hrest⟩ := hrun
    exact ⟨m, hm, ih hrest⟩
  | swap a b rest =>
    by_cases hab : b = a
    · rwa [hab] at hrun ⊢
    · simp only [platformRun_cons_next_iff] at hrun ⊢
      obtain ⟨m, hb, m', ha, hrest⟩ := hrun
      obtain ⟨n, ha', hb'⟩ := platformStep_comm hab hb ha
      exact ⟨n, ha', m', hb', hrest⟩
  | trans _ _ ih ih' => exact ih' (ih hrun)

/-- Settles O59: a step replaces one entry of the platform, so steps of different cores can be exchanged. -/
theorem instancesShareNothing : Obligations.InstancesShareNothing := by
  unfold Obligations.InstancesShareNothing
  refine ⟨fun p q k h => ?step, fun _ _ _ _ hperm hrun => platformRun_perm hperm hrun⟩
  case step =>
    rcases (platformStep_next_iff k p q).1 h with ⟨hnone, rfl⟩ | ⟨s, t, hs, ht, rfl⟩
    · exact ⟨rfl, fun _ _ => rfl, fun s hs => by simp [hnone] at hs⟩
    · obtain ⟨hlt, -⟩ := List.getElem?_eq_some_iff.1 hs
      refine ⟨List.length_set, fun j hj => List.getElem?_set_ne hj.symm, fun s' hs' => ⟨t, ?_, ?_⟩⟩
      · rw [← ht, ← Option.some.inj (hs.symm.trans hs')]
      · simp [hlt]

end Sys2Proof.Machine
end

section
/-! PROOFS of further obligations of spec/44_host_framer.md: the decoded stream (R185, R186), what is rejected and what the
pseudo-statements expand to (R183, R184, R188, R190, R191), and the round trip (R193). -/

namespace Sys2Proof.Machine

open Sys2Proof.Claims

/-! ## The positions of a block's symbols (R72, R185) -/

/-- Setting the bits of the positions with a property one by one. -/
theorem getLsbD_foldl_bitAt (P : Nat → Prop) [DecidablePred P] (n : Nat) {j : Nat} (hj : j < 7) :
    ((List.range n).foldl (fun m i => if P i then m ||| bitAt i else m) (0 : Mask)).getLsbD j =
      decide (j < n ∧ P j) := by
  induction n with
  | zero => simp
  | succ n ih =>
    have hbit : (bitAt n).getLsbD j = decide (n = j) := getLsbD_bitAt n hj
    rw [List.range_succ, List.foldl_append, List.foldl_cons, List.foldl_nil]
    by_cases hnj : n = j
    · subst hnj
      split <;> simp_all [-BitVec.getLsbD_eq_getElem]
    · have hlt : j < n + 1 ↔ j < n := by omega
      split <;> simp_all [-BitVec.getLsbD_eq_getElem]

theorem getLsbD_positionsOf (x : Symbol) (symbols : List Symbol) (g : Nat) {i : Nat} (hi : i < 7) :
    (positionsOf x symbols g).getLsbD i = decide (symbols[7 * g + i]? = some x) := by
  rw [positionsOf, getLsbD_foldl_bitAt (fun i => symbols[7 * g + i]? = some x) 7 hi]
  simp [hi]

/-- R72: no position holds both 1 and `?`. -/
theorem canonical_positionsOf (symbols : List Symbol) (g : Nat) :
    canonical (positionsOf (.bit true) symbols g) (positionsOf .erased symbols g) = true := by
  rw [canonical_iff]
  intro i he
  have hi : i < 7 := BitVec.lt_of_getLsbD he
  rw [getLsbD_positionsOf _ _ _ hi, decide_eq_true_iff] at he
  simp [getLsbD_positionsOf _ _ _ hi, he, -BitVec.getLsbD_eq_getElem]

/-- R185: block `g + 1` of a stream is block `g` of what follows its first block. -/
theorem positionsOf_append_succ (x : Symbol) (b : Block) (rest : List Symbol) (g : Nat) :
    positionsOf x (blockSymbols b ++ rest) (g + 1) = positionsOf x rest g := by
  apply BitVec.eq_of_getLsbD_eq
  intro i hi
  have hlen : (blockSymbols b).length = 7 := rfl
  have hidx : 7 * (g + 1) + i - 7 = 7 * g + i := by omega
  rw [getLsbD_positionsOf _ _ _ hi, getLsbD_positionsOf _ _ _ hi, List.getElem?_append_right (by omega), hlen, hidx]

/-- R78, R185: the first block of a stream is spelled by the positions of its symbols. -/
theorem positionsOf_append_zero (b : Block) (rest : List Symbol) :
    positionsOf (.bit true) (blockSymbols b ++ rest) 0 = blockVal b ∧
      positionsOf .erased (blockSymbols b ++ rest) 0 = blockEra b := by
  have hget {i : Nat} (hi : i < 7) : (blockSymbols b ++ rest)[7 * 0 + i]? = some (blockSymbols b)[i] := by
    rw [Nat.mul_zero, Nat.zero_add, List.getElem?_append_left hi, List.getElem?_eq_getElem hi]
  constructor <;> apply BitVec.eq_of_getLsbD_eq <;> intro i hi
  · rw [getLsbD_positionsOf _ _ _ hi, hget hi, getLsbD_blockVal b hi]
    rcases (blockSymbols b)[i] with (_ | _) | _ <;> rfl
  · rw [getLsbD_positionsOf _ _ _ hi, hget hi, getLsbD_blockEra b hi]
    rcases (blockSymbols b)[i] with _ | _ <;> rfl

/-- R185: the word of DEC of block `g` of a stream. -/
def decWordAt (symbols : List Symbol) (g : Nat) : Word :=
  encode (.dec (positionsOf (.bit true) symbols g) (positionsOf .erased symbols g))

/-- R185: the words of a stream of whole blocks are the words of DEC of its blocks, in order. -/
theorem map_decWord_blockGroups (n : Nat) (symbols : List Symbol) (h : symbols.length = 7 * n) :
    (blockGroups symbols).map decWord = (List.range n).map (decWordAt symbols) := by
  induction n generalizing symbols with
  | zero =>
    obtain rfl := List.length_eq_zero_iff.1 h
    rfl
  | succ n ih =>
    match symbols, h with
    | p1 :: p2 :: d1 :: p4 :: d2 :: d3 :: d4 :: rest, h =>
      have hrest : rest.length = 7 * n := by
        simp only [List.length_cons] at h
        omega
      have hfirst : decWordAt (blockSymbols ⟨p1, p2, d1, p4, d2, d3, d4⟩ ++ rest) 0 =
          decWord ⟨p1, p2, d1, p4, d2, d3, d4⟩ := by
        obtain ⟨hval, hera⟩ := positionsOf_append_zero ⟨p1, p2, d1, p4, d2, d3, d4⟩ rest
        rw [decWordAt, hval, hera, decWord]
      have hlater : decWordAt (blockSymbols ⟨p1, p2, d1, p4, d2, d3, d4⟩ ++ rest) ∘ Nat.succ = decWordAt rest :=
        funext fun g => by simp only [Function.comp_apply, decWordAt, positionsOf_append_succ]
      rw [blockGroups, List.map_cons, ih rest hrest, List.range_succ_eq_map, List.map_cons, List.map_map]
      exact congrArg₂ List.cons hfirst.symm (congrArg (List.map · (List.range n)) hlater.symm)

/-! ## The stream of decoded blocks (R185, R186) -/

/-- R23: what a well-formed instruction writes to RES, from whatever state, is the result of its word. -/
theorem commandResult_encode {i : Instr} (h : i.wellFormed = true) {s c : State} (hc : exec i s = .next c) :
    commandResult (encode i) = c.res := by
  obtain ⟨op, val, era, code, pos, count, hexec⟩ := exec_eq_commit i
  rw [hexec] at hc
  cases hc
  simp only [commandResult, executeWord, decode_encode h, hexec, State.commit_res]

/-- R185: the symbols a stream's blocks decode to, joined in order. -/
def decodedSymbols (symbols : List Symbol) : List Symbol :=
  ((blockGroups symbols).map decWord).flatMap fun w => nibbleSymbols (commandResult w)

/-- R185: after a reset the words of a stream give the symbols its blocks decode to. -/
theorem runBlocks_decWord (symbols : List Symbol) {s : State} (hs : s.wasReset = true) :
    ∃ t, runBlocks .partialNibble ((blockGroups symbols).map decWord) s = some (decodedSymbols symbols, t) ∧
      t.wasReset = true := by
  have hlegal : ∀ w ∈ (blockGroups symbols).map decWord, legal w = true := by simp [legal_decWord]
  exact runBlocks_of_results .partialNibble commandResult _ (fun w hw _ hs => runBlock_of_legal (hlegal w hw) hs) s hs

/-- R184, R185: a nonempty stream of whole blocks is run block by block. -/
theorem decodeStream_symbolText {symbols : List Symbol} (hne : symbols ≠ []) (hlen : symbols.length % 7 = 0)
    (s : State) : decodeStream (symbolText symbols) s =
      streamResult (runBlocks .partialNibble ((blockGroups symbols).map decWord) s) := by
  simp only [decodeStream, decodeLengthOk_symbolText hne hlen, if_true, parseAll_symbolText]

/-- R185: after a reset a nonempty stream of whole blocks gives the symbols its blocks decode to. -/
theorem decodeStream_answers {symbols : List Symbol} (hne : symbols ≠ []) (hlen : symbols.length % 7 = 0) {s : State}
    (hs : s.wasReset = true) : ∃ t, decodeStream (symbolText symbols) s = .output (decodedSymbols symbols) t := by
  obtain ⟨t, ht, -⟩ := runBlocks_decWord symbols hs
  exact ⟨t, by rw [decodeStream_symbolText hne hlen, ht, streamResult]⟩

theorem length_nibbleSymbols (w : Word) : (nibbleSymbols w).length = 4 := rfl

/-- Settles O55: block `g` gives the four symbols that its word's result spells. -/
theorem decodedStreamLength : Obligations.DecodedStreamLength := by
  unfold Obligations.DecodedStreamLength
  intro symbols s hs hne hlen
  obtain ⟨t, ht⟩ := decodeStream_answers hne hlen hs
  have hwords := map_decWord_blockGroups (symbols.length / 7) symbols (by omega)
  refine ⟨_, t, ht, ?length, fun g hg => ⟨_, exec_dec _ _ s, fun j hj => ?symbol⟩⟩
  case length =>
    simp [decodedSymbols, hwords, List.flatMap_map, List.length_flatMap, length_nibbleSymbols, Nat.mul_comm]
  case symbol =>
    have hresult := commandResult_encode (i := .dec _ _) (canonical_positionsOf symbols g) (exec_dec _ _ s)
    rw [decodedSymbols, getElem?_flatMap_of_length (fun w => length_nibbleSymbols (commandResult w)) _ _ hj, hwords,
      List.getElem?_map, List.getElem?_range hg, Option.map_some, Option.bind_some, getElem?_nibbleSymbols _ hj,
      decWordAt, hresult]
    rfl

/-- Settles O57: the words of the joined streams are those of each, and a word's result does not depend on the state. -/
theorem blockFailureIsLocal : Obligations.BlockFailureIsLocal := by
  unfold Obligations.BlockFailureIsLocal
  intro a b s hs hne hne' hlen hlen'
  obtain ⟨t, ht, hreset⟩ := runBlocks_decWord a hs
  obtain ⟨u, hu, -⟩ := runBlocks_decWord b hreset
  have hblocks : blockGroups (a ++ b) = blockGroups a ++ blockGroups b :=
    blockGroups_append (a.length / 7) a b (by omega)
  have hjoined : runBlocks .partialNibble ((blockGroups (a ++ b)).map decWord) s =
      some (decodedSymbols a ++ decodedSymbols b, u) := by
    simp only [hblocks, List.map_append, runBlocks_append, ht, Option.bind_some, hu, Option.map_some]
  have hlen'' : (a ++ b).length % 7 = 0 := by
    rw [List.length_append]
    omega
  refine ⟨decodedSymbols a, decodedSymbols b, t, u, ?_, ?_, ?_, fun s' hs' => decodeStream_answers hne' hlen' hs'⟩
  · rw [decodeStream_symbolText hne hlen, ht, streamResult]
  · rw [decodeStream_symbolText hne' hlen', hu, streamResult]
  · rw [decodeStream_symbolText (List.append_ne_nil_of_left_ne_nil hne b) hlen'', hjoined, streamResult]

/-! ## The round trip (R193) -/

/-- R181: the symbols of a codeword are those of its block. -/
theorem encodedGroup_eq_blockSymbols (d : BitVec 4) : encodedGroup d = blockSymbols (blockOperand (encBits d) 0) := by
  simp only [encodedGroup, codewordSymbols, resVal_packRes, blockSymbols, blockOperand, operandSymbol_of_no_erasure]

/-- R185: the stream of some codewords is split into these codewords. -/
theorem blockGroups_flatMap_encodedGroup (ds : List (BitVec 4)) :
    blockGroups (ds.flatMap encodedGroup) = ds.map fun d => blockOperand (encBits d) 0 := by
  induction ds with
  | nil => rfl
  | cons d ds ih =>
    rw [List.flatMap_cons, encodedGroup_eq_blockSymbols, List.map_cons, ← ih]
    rfl

/-- R78: the DEC word of the block of a canonical operand. -/
theorem decWord_blockOperand {v e : Mask} (h : canonical v e = true) :
    decWord (blockOperand v e) = encode (.dec v e) := by
  obtain ⟨hval, hera⟩ := blockVal_blockOperand v e h
  rw [decWord, hval, hera]

/-- R157: DEC of a codeword gives its nibble back. -/
theorem commandResult_decWord_codeword (d : BitVec 4) :
    commandResult (decWord (blockOperand (encBits d) 0)) = packRes 3 (0#3 ++ d) 0 := by
  have hnumber := (number_eq_zero_iff (encBits d)).2 ⟨d, rfl⟩
  rw [decWord_blockOperand (canonical_zero _), commandResult_encode (i := .dec _ _) (canonical_zero _)
    (exec_dec_of_no_erasure _ State.reset)]
  simp only [hnumber, flipped, if_true, dataField_encBits]

/-- R143: the four bits of a nibble as symbols. -/
def nibbleBits (d : BitVec 4) : List Symbol :=
  [.bit (d.getLsbD 0), .bit (d.getLsbD 1), .bit (d.getLsbD 2), .bit (d.getLsbD 3)]

theorem nibbleSymbols_packRes_nibble (op : BitVec 4) (d : BitVec 4) :
    nibbleSymbols (packRes op (0#3 ++ d) 0) = nibbleBits d := by
  simp only [nibbleSymbols, nibbleBits, resVal_packRes, resEra_packRes, operandSymbol_of_no_erasure,
    BitVec.getLsbD_append]
  rfl

/-- R157: a stream of codewords decodes to their nibbles. -/
theorem decodedSymbols_codewords (ds : List (BitVec 4)) :
    decodedSymbols (ds.flatMap encodedGroup) = ds.flatMap nibbleBits := by
  simp only [decodedSymbols, blockGroups_flatMap_encodedGroup, List.flatMap_map, commandResult_decWord_codeword,
    nibbleSymbols_packRes_nibble]

theorem getElem?_nibbleBits_groupNibble (bits : List Bool) (g : Nat) {j : Nat} (hj : j < 4) :
    (nibbleBits (groupNibble bits g))[j]? = some (.bit (bits.getD (4 * g + j) false)) := by
  simp only [nibbleBits, groupNibble, BitVec.getLsbD_append]
  interval_cases j <;> simp

/-- R187: the bits of a message's groups, cut to its length, are the message. -/
theorem take_groupNibbles (bits : List Bool) :
    (((List.range ((bits.length + 3) / 4)).map (groupNibble bits)).flatMap nibbleBits).take bits.length =
      bits.map .bit := by
  apply List.ext_getElem?
  intro k
  rw [List.getElem?_take, List.getElem?_map]
  by_cases hk : k < bits.length
  case pos =>
    have hg : k / 4 < (bits.length + 3) / 4 := by omega
    have hj : k % 4 < 4 := Nat.mod_lt _ (by decide)
    have hsplit : 4 * (k / 4) + k % 4 = k := Nat.div_add_mod k 4
    have hsymbol := getElem?_flatMap_of_length (f := nibbleBits) (fun _ => rfl)
      ((List.range ((bits.length + 3) / 4)).map (groupNibble bits)) (k / 4) hj
    rw [List.getElem?_map, List.getElem?_range hg, Option.map_some, Option.bind_some,
      getElem?_nibbleBits_groupNibble _ _ hj, hsplit] at hsymbol
    simp [hk, hsymbol]
  case neg => simp [hk]

/-- R181, R230: a call of the framer leaves a reset core one after a reset. -/
theorem wasReset_of_encodeMessage {bits : List Bool} {s t : State} {out : List Symbol} (hs : s.wasReset = true)
    (h : encodeMessage (bitText bits) s = .output out t) : t.wasReset = true := by
  obtain ⟨out', t', hrun, hreset⟩ := runBlocks_answers .codeword ((nibbleGroups bits).map encWord) s hs
  simp only [encodeMessage, parseAll_bitText, hrun, streamResult] at h
  cases h
  exact hreset

/-- R187: a caller that knows the message length cuts the decoded stream to it. -/
theorem decodeMessage_symbolText {n : Nat} {symbols : List Symbol} (hlen : symbols.length = encodedLength n)
    (hne : symbols ≠ []) {s : State} (hs : s.wasReset = true) :
    ∃ t, decodeMessage n (symbolText symbols) s = .output ((decodedSymbols symbols).take n) t := by
  have htext : (symbolText symbols).length = encodedLength n := by rw [symbolText, List.length_map, hlen]
  have hblocks : symbols.length % 7 = 0 := by rw [hlen, encodedLength, Nat.mul_mod_right]
  obtain ⟨t, ht⟩ := decodeStream_answers hne hblocks hs
  exact ⟨t, by simp only [decodeMessage, htext, if_true, ht]⟩

/-- Settles O58: the stream is the message's codewords, which decode to its groups. -/
theorem framerRoundTrip : Obligations.FramerRoundTrip := by
  unfold Obligations.FramerRoundTrip
  intro bits s hs hne
  obtain ⟨t, ht⟩ := encodeMessage_bitText bits hs
  rw [← List.flatMap_map] at ht
  generalize hds : (List.range ((bits.length + 3) / 4)).map (groupNibble bits) = ds at ht
  have hcount : ds.length = (bits.length + 3) / 4 := by rw [← hds, List.length_map, List.length_range]
  have hlen : (ds.flatMap encodedGroup).length = encodedLength bits.length := by
    simp [List.length_flatMap, length_encodedGroup, encodedLength, hcount, Nat.mul_comm]
  have hpos := List.length_pos_of_ne_nil hne
  have hstream : ds.flatMap encodedGroup ≠ [] := List.ne_nil_of_length_pos (by rw [hlen, encodedLength]; omega)
  obtain ⟨u, hu⟩ := decodeMessage_symbolText hlen hstream (wasReset_of_encodeMessage hs ht)
  rw [decodedSymbols_codewords, ← hds, take_groupNibbles, hds] at hu
  exact ⟨_, t, u, ht, hu⟩

/-! ## Rejections (R183, R184, R188) -/

theorem parseAll_bits_eq_none {text : List Char} (h : ∃ c ∈ text, c ≠ '0' ∧ c ≠ '1') :
    parseAll bitOfChar text = none := by
  obtain ⟨c, hc, h0, h1⟩ := h
  exact parseAll_eq_none _ _ ⟨c, hc, bitOfChar_eq_none c h0 h1⟩

theorem parseAll_symbols_eq_none {text : List Char} (h : ∃ c ∈ text, c ≠ '0' ∧ c ≠ '1' ∧ c ≠ '?') :
    parseAll symbolOfChar text = none := by
  obtain ⟨c, hc, h0, h1, h2⟩ := h
  exact parseAll_eq_none _ _ ⟨c, hc, symbolOfChar_eq_none c h0 h1 h2⟩

/-- R184: a decode length is a positive multiple of 7. -/
theorem decodeLengthOk_iff (n : Nat) : decodeLengthOk n = true ↔ n ≠ 0 ∧ n % 7 = 0 := by
  simp [decodeLengthOk]

theorem decodeLengthOk_eq_false {n : Nat} (h : n = 0 ∨ n % 7 ≠ 0) : ¬ decodeLengthOk n = true := by
  rw [decodeLengthOk_iff]
  omega

/-! ## The expansions (R190, R191) -/

/-- A list put together element by element, each with its number from `k` on, is the list of the numbered parts where the
elements' words are `w 0`, `w 1` and so on. -/
theorem numbered_eq_flatMap {α β γ : Type} {f : Nat → List α → List β} {word : α → γ} {part : Nat → γ → List β}
    (hnil : ∀ k, f k [] = []) (hcons : ∀ k a as, f k (a :: as) = part k (word a) ++ f (k + 1) as) (as : List α)
    (n : Nat) (w : Nat → γ) (h : as.map word = (List.range n).map w) (k : Nat) :
    f k as = (List.range n).flatMap fun g => part (k + g) (w g) := by
  induction as generalizing n w k with
  | nil =>
    have hn : n = 0 := by simpa using (congrArg List.length h).symm
    rw [hnil, hn]
    rfl
  | cons a as ih =>
    match n with
    | 0 => simp at h
    | n + 1 =>
      rw [List.range_succ_eq_map, List.map_cons, List.map_cons, List.map_map, List.cons.injEq] at h
      obtain ⟨hfirst, hrest⟩ := h
      rw [hcons, hfirst, ih n _ hrest, List.range_succ_eq_map, List.flatMap_cons, List.flatMap_map]
      simp only [Nat.add_zero, Function.comp_apply, Nat.succ_eq_add_one, Nat.add_assoc, Nat.add_comm 1]

/-- R190: the statements of ENCMSG, group by group. -/
theorem encStatements_nibbleGroups (bits : List Bool) :
    encStatements 0 (nibbleGroups bits) = (List.range ((bits.length + 3) / 4)).flatMap fun g =>
      [.wrReg .cmd (.const (encode (.enc (groupNibble bits g)))), .rdReg .res g] := by
  have hparts := numbered_eq_flatMap (f := encStatements) (part := fun g w => [.wrReg .cmd (.const w), .rdReg .res g])
    (fun _ => rfl) (fun _ _ _ => rfl) _ _ _ (map_encWord_nibbleGroups bits) 0
  simpa only [Nat.zero_add] using hparts

/-- R191: the statements of DECSTR, block by block. -/
theorem decStatements_blockGroups {symbols : List Symbol} (h : symbols.length % 7 = 0) :
    decStatements 0 (blockGroups symbols) = (List.range (symbols.length / 7)).flatMap fun g =>
      [.wrReg .cmd (.const (decWordAt symbols g)), .rdReg .res (2 * g), .rdReg .stat (2 * g + 1)] := by
  have hparts := numbered_eq_flatMap (f := decStatements)
    (part := fun g w => [.wrReg .cmd (.const w), .rdReg .res (2 * g), .rdReg .stat (2 * g + 1)])
    (fun _ => rfl) (fun _ _ _ => rfl) _ _ _ (map_decWord_blockGroups (symbols.length / 7) symbols (by omega)) 0
  simpa only [Nat.zero_add] using hparts

/-- Settles O56: the length and the alphabet of a text decide what is rejected, and an accepted text's words decide the
expansion. -/
theorem framerRejections : Obligations.FramerRejections := by
  unfold Obligations.FramerRejections
  refine ⟨fun text s h => ?encode, fun text s h => ?length, fun text s hne hlen h => ?decode,
    fun length text s h => if_neg h, fun text h => ?encMsg, fun text h => ?strLength, fun text hne hlen h => ?decStr,
    fun bits => ?expandEnc, fun symbols hne hlen => ?expandDec⟩
  case encode => simp only [encodeMessage, parseAll_bits_eq_none h]
  case length => exact if_neg (decodeLengthOk_eq_false h)
  case decode =>
    simp only [decodeStream, (decodeLengthOk_iff _).2 ⟨hne, hlen⟩, if_true, parseAll_symbols_eq_none h]
  case encMsg => simp only [encMsg, parseAll_bits_eq_none h]
  case strLength => exact if_neg (decodeLengthOk_eq_false h)
  case decStr => simp only [decStr, (decodeLengthOk_iff _).2 ⟨hne, hlen⟩, if_true, parseAll_symbols_eq_none h]
  case expandEnc =>
    simp only [encMsg, parseAll_bitText, encStatements_nibbleGroups, nibbleGroups_length]
  case expandDec =>
    have hcount : (blockGroups symbols).length = symbols.length / 7 := blockGroups_length _ _ (by omega)
    simp only [decStr, decodeLengthOk_symbolText hne hlen, if_true, parseAll_symbolText,
      decStatements_blockGroups hlen, hcount]
    rfl

end Sys2Proof.Machine
end

section
/-! PROOFS of the obligations of spec/30_encoding.md on the assembler: the lines it spells and the lines it refuses (R78,
R80). -/

namespace Sys2Proof.Machine

open Sys2Proof.Claims

/-! ## Hexadecimal digits (R80) -/

theorem hexDigit_hexUpper : ∀ n : BitVec 4, hexUpper[n.toNat]?.bind hexDigit = some n := by decide

theorem hexDigit_hexLower : ∀ n : BitVec 4, hexLower[n.toNat]?.bind hexDigit = some n := by decide

/-- The digits are read by their ranges in the character table. -/
theorem hexUpper_decimal : ∀ m, 48 ≤ m → m ≤ 57 → hexUpper[(BitVec.ofNat 4 (m - 48)).toNat]? = some (Char.ofNat m) := by
  intro m hlow hhigh
  interval_cases m <;> rfl

theorem hexUpper_letter : ∀ m, 65 ≤ m → m ≤ 70 → hexUpper[(BitVec.ofNat 4 (m - 55)).toNat]? = some (Char.ofNat m) := by
  intro m hlow hhigh
  interval_cases m <;> rfl

theorem hexLower_letter : ∀ m, 97 ≤ m → m ≤ 102 → hexLower[(BitVec.ofNat 4 (m - 87)).toNat]? = some (Char.ofNat m) := by
  intro m hlow hhigh
  interval_cases m <;> rfl

theorem char_le_iff_toNat_le (a c : Char) : a ≤ c ↔ a.toNat ≤ c.toNat := by
  rw [Char.le_def, UInt32.le_iff_toNat_le]
  rfl

/-- R80: the hexadecimal digits are the characters that are read, each as its value. -/
theorem hexDigit_eq_some_iff (c : Char) (n : BitVec 4) : hexDigit c = some n ↔ spellsDigit c n := by
  constructor
  · intro h
    unfold hexDigit at h
    simp only [char_le_iff_toNat_le] at h
    split at h
    case isTrue hrange =>
      cases h
      exact .inl (by rw [hexUpper_decimal _ hrange.1 hrange.2, Char.ofNat_toNat])
    case isFalse =>
      split at h
      case isTrue hrange =>
        cases h
        exact .inl (by rw [hexUpper_letter _ hrange.1 hrange.2, Char.ofNat_toNat])
      case isFalse =>
        split at h
        case isTrue hrange =>
          cases h
          exact .inr (by rw [hexLower_letter _ hrange.1 hrange.2, Char.ofNat_toNat])
        case isFalse => cases h
  · rintro (h | h)
    · simpa only [h, Option.bind_some] using hexDigit_hexUpper n
    · simpa only [h, Option.bind_some] using hexDigit_hexLower n

/-- R80: a digit is no blank and starts no comment. -/
theorem plain_of_spellsDigit {c : Char} {n : BitVec 4} (h : spellsDigit c n) : isBlank c = false ∧ c ≠ ';' := by
  have hupper : ∀ c ∈ hexUpper, isBlank c = false ∧ c ≠ ';' := by simp [hexUpper, isBlank]
  have hlower : ∀ c ∈ hexLower, isBlank c = false ∧ c ≠ ';' := by simp [hexLower, isBlank]
  exact h.elim (fun h => hupper c (List.mem_of_getElem? h)) fun h => hlower c (List.mem_of_getElem? h)

/-! ## The word of eight digits (R80) -/

/-- A text is read as a list where each of its characters is read as the list's element. -/
theorem parseAll_eq_some_iff {α : Type} (f : Char → Option α) (text : List Char) (xs : List α) :
    parseAll f text = some xs ↔ List.Forall₂ (fun c x => f c = some x) text xs := by
  induction text generalizing xs with
  | nil => simp [parseAll, eq_comm]
  | cons c rest ih =>
    rw [parseAll, List.forall₂_cons_left_iff]
    simp only [← ih]
    cases f c <;> cases parseAll f rest <;> simp [eq_comm]

/-- R80: the four bits that digit `k` stands for. -/
def wordDigit (w : Word) (k : Nat) : BitVec 4 := w.extractLsb' (28 - 4 * k) 4

/-- R80: the digits of a word, the one of bits [31:28] first. -/
def wordDigits (w : Word) : List (BitVec 4) := (List.range 8).map (wordDigit w)

/-- R80: a word is its digits, one after the other. -/
theorem append_wordDigits (w : Word) :
    wordDigit w 0 ++ wordDigit w 1 ++ wordDigit w 2 ++ wordDigit w 3 ++ wordDigit w 4 ++ wordDigit w 5 ++
      wordDigit w 6 ++ wordDigit w 7 = w := by
  apply BitVec.eq_of_getLsbD_eq
  intro i hi
  simp only [wordDigit, BitVec.getLsbD_append, BitVec.getLsbD_extractLsb']
  interval_cases i <;> simp

theorem wordDigit_append (a b c d e f g h : BitVec 4) {k : Nat} (hk : k < 8) :
    wordDigit (a ++ b ++ c ++ d ++ e ++ f ++ g ++ h) k = [a, b, c, d, e, f, g, h][k] := by
  apply BitVec.eq_of_getLsbD_eq
  intro i hi
  simp only [wordDigit, BitVec.getLsbD_extractLsb', BitVec.getLsbD_append]
  interval_cases k <;> interval_cases i <;> simp

theorem wordDigits_append (a b c d e f g h : BitVec 4) :
    wordDigits (a ++ b ++ c ++ d ++ e ++ f ++ g ++ h) = [a, b, c, d, e, f, g, h] := by
  refine List.ext_getElem rfl fun k hk _ => ?_
  simp only [wordDigits, List.getElem_map, List.getElem_range]
  exact wordDigit_append a b c d e f g h hk

/-- R80: digits spell a word where they are read as the word's digits. -/
theorem spellsWord_iff (digits : List Char) (w : Word) :
    spellsWord digits w ↔ parseAll hexDigit digits = some (wordDigits w) := by
  rw [parseAll_eq_some_iff, List.forall₂_iff_get]
  have hlen : (wordDigits w).length = 8 := rfl
  constructor
  · rintro ⟨h8, hdigits⟩
    refine ⟨h8, fun k hk hk' => ?_⟩
    obtain ⟨c, hc, hspells⟩ := hdigits k (h8 ▸ hk)
    rw [List.getElem?_eq_getElem hk] at hc
    rw [hexDigit_eq_some_iff, List.get_eq_getElem, Option.some.inj hc]
    simpa [wordDigits, wordDigit] using hspells
  · rintro ⟨h8, hdigits⟩
    rw [hlen] at h8
    refine ⟨h8, fun k hk => ⟨digits[k], List.getElem?_eq_getElem _, ?_⟩⟩
    have hread := hdigits k (h8 ▸ hk) hk
    rw [hexDigit_eq_some_iff, List.get_eq_getElem] at hread
    simpa [wordDigits, wordDigit] using hread

/-- R80: `0x` and eight digits are read as the word of the digits, and nothing else is. -/
theorem rawWord_eq_some_iff (text : List Char) (w : Word) :
    rawWord text = some w ↔ ∃ digits, spellsWord digits w ∧ text = '0' :: 'x' :: digits := by
  constructor
  · intro h
    unfold rawWord at h
    split at h
    case h_1 digits =>
      split at h
      case h_1 hread =>
        cases h
        exact ⟨digits, (spellsWord_iff _ _).2 (by rw [hread, wordDigits_append]), rfl⟩
      case h_2 => cases h
    case h_2 => cases h
  · rintro ⟨digits, h, rfl⟩
    have hread : parseAll hexDigit digits = some [wordDigit w 0, wordDigit w 1, wordDigit w 2, wordDigit w 3,
        wordDigit w 4, wordDigit w 5, wordDigit w 6, wordDigit w 7] := (spellsWord_iff digits w).1 h
    simp only [rawWord, hread, append_wordDigits]

/-- R80: every word has eight digits. -/
theorem exists_spellsWord (w : Word) : ∃ digits, spellsWord digits w := by
  have hdigit : ∀ n : BitVec 4, ∃ c, spellsDigit c n := fun n => by
    obtain ⟨c, hc, -⟩ := Option.bind_eq_some_iff.1 (hexDigit_hexUpper n)
    exact ⟨c, .inl hc⟩
  choose char hchar using hdigit
  refine ⟨(wordDigits w).map char, by simp [wordDigits], fun k hk => ⟨char (wordDigit w k), ?_, hchar _⟩⟩
  simp [wordDigits, hk]

/-! ## The lines that spell a command (R78, R80) -/

/-- The mnemonics of R80. -/
def mnemonics : List (List Char) := [['E', 'N', 'C'], ['S', 'Y', 'N'], ['D', 'E', 'C'], ['.', 'c', 'm', 'd']]

/-- R80: a mnemonic is a word without blanks. -/
theorem plain_of_mem_mnemonics :
    ∀ m ∈ mnemonics, (∀ c ∈ m, isBlank c = false ∧ c ≠ ';') ∧ m ≠ [] := by
  simp [mnemonics, isBlank]

/-- R14: a text of symbols has no blank and starts no comment. -/
theorem plain_of_mem_map_charOfSymbol {symbols : List Symbol} :
    ∀ c ∈ symbols.map charOfSymbol, isBlank c = false ∧ c ≠ ';' := by
  intro c hc
  obtain ⟨x, -, rfl⟩ := List.mem_map.1 hc
  exact charOfSymbol_plain x

theorem nibbleString_eq_map (n : Nibble) :
    nibbleString n = [Symbol.bit n.d1, .bit n.d2, .bit n.d3, .bit n.d4].map charOfSymbol := rfl

/-- R80: the mnemonic of an instruction. -/
theorem instrText_mnemonic (i : Instr) : (instrText i).1 ∈ mnemonics := by
  cases i <;> simp [instrText, mnemonics]

/-- R80: an instruction's operand text is a word without blanks. -/
theorem instrText_operand_plain (i : Instr) :
    (∀ c ∈ (instrText i).2, isBlank c = false ∧ c ≠ ';') ∧ (instrText i).2 ≠ [] := by
  cases i with
  | enc d =>
    simp only [instrText, nibbleString_eq_map]
    exact ⟨plain_of_mem_map_charOfSymbol, nofun⟩
  | syn v e => exact ⟨plain_of_mem_map_charOfSymbol, nofun⟩
  | dec v e => exact ⟨plain_of_mem_map_charOfSymbol, nofun⟩

/-- R78: the ENC word of a nibble operand. -/
theorem encWord_nibbleOperand (d : BitVec 4) : encWord (nibbleOperand d) = encode (.enc d) := by
  rw [encWord, nibbleField_nibbleOperand]

/-- R78: the SYN word of the block of a canonical operand. -/
theorem synWord_blockOperand {v e : Mask} (h : canonical v e = true) :
    synWord (blockOperand v e) = encode (.syn v e) := by
  obtain ⟨hval, hera⟩ := blockVal_blockOperand v e h
  rw [synWord, hval, hera]

/-- R78, R80: the two words of a well-formed instruction's line are assembled to its command word. -/
theorem assembleWords_instrText {i : Instr} (h : i.wellFormed = true) :
    assembleWords [(instrText i).1, (instrText i).2] = .ok (some (encode i)) := by
  cases i with
  | enc d =>
    have hline : assembleWords [['E', 'N', 'C'], nibbleString (nibbleOperand d)] =
        asmWord encWord (nibbleText (nibbleString (nibbleOperand d))) := rfl
    rw [nibbleText_nibbleString, asmWord, encWord_nibbleOperand] at hline
    exact hline
  | syn v e =>
    have hline : assembleWords [['S', 'Y', 'N'], blockString (blockOperand v e)] =
        asmWord synWord (blockText (blockString (blockOperand v e))) := rfl
    rw [blockText_blockString, asmWord, synWord_blockOperand h] at hline
    exact hline
  | dec v e =>
    have hline : assembleWords [['D', 'E', 'C'], blockString (blockOperand v e)] =
        asmWord decWord (blockText (blockString (blockOperand v e))) := rfl
    rw [blockText_blockString, asmWord, decWord_blockOperand h] at hline
    exact hline

/-- R80: `.cmd 0x<digits>` is two words without blanks. -/
theorem assembleLine_cmd {w : Word} {digits tail : List Char} (h : spellsWord digits w) (ht : isTail tail) :
    assembleLine (['.', 'c', 'm', 'd', ' ', '0', 'x'] ++ (digits ++ tail)) = .ok (some w) := by
  have hdigits : ∀ c ∈ digits, isBlank c = false ∧ c ≠ ';' := fun c hc => by
    obtain ⟨h8, hspells⟩ := h
    obtain ⟨k, hk, rfl⟩ := List.mem_iff_getElem.1 hc
    obtain ⟨c, hget, hc⟩ := hspells k (h8 ▸ hk)
    rw [(List.getElem?_eq_some_iff.1 hget).2]
    exact plain_of_spellsDigit hc
  have hoperand : ∀ c ∈ '0' :: 'x' :: digits, isBlank c = false ∧ c ≠ ';' := by
    simp only [List.forall_mem_cons]
    exact ⟨by decide, by decide, hdigits⟩
  obtain ⟨hm, hm0⟩ := plain_of_mem_mnemonics ['.', 'c', 'm', 'd'] (by simp [mnemonics])
  have hraw : rawWord ('0' :: 'x' :: digits) = some w := (rawWord_eq_some_iff _ w).2 ⟨digits, h, rfl⟩
  refine (assembleLine_two_words ['.', 'c', 'm', 'd'] ('0' :: 'x' :: digits) tail hm hoperand hm0 nofun ht).trans ?_
  simp only [assembleWords, hraw, asmWord, id_eq]

/-- Settles O24: each line has two words, a mnemonic and an operand that is read back as what it spells. -/
theorem assemblerSpellsEveryInstruction : Obligations.AssemblerSpellsEveryInstruction := by
  unfold Obligations.AssemblerSpellsEveryInstruction
  refine ⟨fun i tail hi ht => ?instruction, fun w digits tail h ht => assembleLine_cmd h ht, exists_spellsWord,
    fun line w h => ?statement⟩
  case instruction =>
    obtain ⟨hm, hm0⟩ := plain_of_mem_mnemonics _ (instrText_mnemonic i)
    obtain ⟨ho, ho0⟩ := instrText_operand_plain i
    rw [assembleLine_two_words _ _ tail hm ho hm0 ho0 ht, assembleWords_instrText hi]
  case statement => simp only [assembleStatement, h]

/-! ## The lines that are refused (R80) -/

/-- R80: a line that is not a mnemonic with one operand is refused, by its first word. -/
theorem assembleWords_refused {mnemonic : List Char} {rest : List (List Char)}
    (h : mnemonic ∈ mnemonics → rest.length ≠ 1) :
    assembleWords (mnemonic :: rest) =
      .error (if mnemonic ∈ mnemonics then .badOperand else .unknownMnemonic) := by
  have hoperand (m operand : List Char) (hm : m ∈ mnemonics) : mnemonic :: rest ≠ [m, operand] := by
    rintro ⟨⟩
    exact h hm rfl
  unfold assembleWords
  split
  case h_1 heq => cases heq
  case h_2 heq => exact absurd heq (hoperand _ _ (by simp [mnemonics]))
  case h_3 heq => exact absurd heq (hoperand _ _ (by simp [mnemonics]))
  case h_4 heq => exact absurd heq (hoperand _ _ (by simp [mnemonics]))
  case h_5 heq => exact absurd heq (hoperand _ _ (by simp [mnemonics]))
  case h_6 heq =>
    cases heq
    rw [apply_ite Except.error]
    simp only [mnemonics, List.mem_cons, List.not_mem_nil, or_false]

/-- R74, R78: the word of a block as SYN's operand is legal. -/
theorem legal_synWord (b : Block) : legal (synWord b) = true := legal_encode (canonical_spelling_block b)

theorem exists_of_asmWord {α : Type} {word : α → Word} {operand : Option α} {w : Word}
    (h : asmWord word operand = .ok (some w)) : ∃ x, word x = w := by
  cases operand with
  | none => cases h
  | some x =>
    cases h
    exact ⟨x, rfl⟩

/-- R80: only a line whose first word is `.cmd` can spell an illegal word. -/
theorem legal_of_assembleWords {words : List (List Char)} {w : Word} (hcmd : words.head? ≠ some ['.', 'c', 'm', 'd'])
    (h : assembleWords words = .ok (some w)) : legal w = true := by
  rcases assembleWords_cases words with ⟨-, hw⟩ | ⟨_, -, hw⟩ | ⟨_, -, hw⟩ | ⟨_, -, hw⟩ | ⟨_, rfl, -⟩ | ⟨_, _, -, _, hw⟩
  · cases hw.symm.trans h
  · obtain ⟨n, rfl⟩ := exists_of_asmWord (hw.symm.trans h)
    exact legal_encWord n
  · obtain ⟨b, rfl⟩ := exists_of_asmWord (hw.symm.trans h)
    exact legal_synWord b
  · obtain ⟨b, rfl⟩ := exists_of_asmWord (hw.symm.trans h)
    exact legal_decWord b
  · exact absurd rfl hcmd
  · cases hw.symm.trans h

/-- R80: a `.cmd` operand that is not `0x` and eight digits is not read. -/
theorem rawWord_eq_none {text : List Char} (h : ∀ digits w, spellsWord digits w → text ≠ '0' :: 'x' :: digits) :
    rawWord text = none := by
  rw [Option.eq_none_iff_forall_ne_some]
  intro w hw
  obtain ⟨digits, hspells, htext⟩ := (rawWord_eq_some_iff text w).1 hw
  exact h digits w hspells htext

/-- Settles O25: a line is assembled from its words, and a mnemonic with one operand by the form of that operand. -/
theorem assemblerRefusesWhatItCannotSpell : Obligations.AssemblerRefusesWhatItCannotSpell := by
  unfold Obligations.AssemblerRefusesWhatItCannotSpell
  intro line
  have hline : assembleLine line = assembleWords (lineWords line) := rfl
  rw [hline]
  refine ⟨fun text hw h => ?enc, fun mnemonic text hm hw h => ?block, fun text hw h => ?cmd,
    fun mnemonic rest hw (hm : mnemonic ∉ mnemonics) => ?unknown,
    fun mnemonic rest hw (hm : mnemonic ∈ mnemonics) hrest => ?count, fun hw => ?empty,
    fun w hcmd h => legal_of_assembleWords hcmd h⟩
  case enc => simp only [hw, assembleWords, nibbleText_eq_none text h, asmWord]
  case block => rcases hm with rfl | rfl <;> simp only [hw, assembleWords, blockText_eq_none text h, asmWord]
  case cmd => simp only [hw, assembleWords, rawWord_eq_none h, asmWord]
  case unknown => rw [hw, assembleWords_refused fun h => absurd h hm, if_neg hm]
  case count => rw [hw, assembleWords_refused fun _ => hrest, if_pos hm]
  case empty => rw [hw, assembleWords]

end Sys2Proof.Machine
end
